-- ==== Sys2Proof/Word.lean ====
section
/-! DEFINITION. The widths of the machine's values (spec/00_scope.md R8, R9, R10; spec/10_state.md R20).
No value of this machine is signed (R10); bit 0 is the least significant bit (R11). -/

namespace Sys2Proof

/-- A byte: 8 bits (R10). -/
abbrev Byte := BitVec 8

/-- A word: 32 bits, unsigned; `+` on it is the `+32` of R100, addition modulo 2^32 with the carry dropped. -/
abbrev Word := BitVec 32

/-- `LEN`, `ARG` and `MADDR`: 61 bits (`MSG_LEN_BITS`, R9, R31, R54). -/
abbrev MsgLen := BitVec 61

/-- `BLK`: 56 bits (`BLK_BITS`, R9, R33). -/
abbrev BlkIdx := BitVec 56

/-- `T`: 7 bits (`T_BITS`, R9, R34). -/
abbrev StepIdx := BitVec 7

/-- `PHASE`: 3 bits (`PHASE_BITS`, R9, R32). A bit vector and not a list of names, because the codes 5, 6 and 7
exist as values (R91) and the register is an output port (R175). -/
abbrev PhaseCode := BitVec 3

/-- A command word, format `CMD`: 64 bits (`CMD_BITS`, R9, R81). -/
abbrev CmdWord := BitVec 64

/-- A sequencer word, format `SEQ`: 11 bits (R86). -/
abbrev SeqWord := BitVec 11

end Sys2Proof
end

