-- ==== Sys2Proof/Config.lean ====
section
/-! DEFINITION. What an implementation fixes, and the free values of the spec (spec/00_scope.md R9;
spec/93_implementation_defined.md part 1). -/

namespace Sys2Proof

/-- `MSG_LEN_BITS`: 61 for this hardware (R9, R84); `MsgLen` is that wide. DESIGN CHOICE, safe: the spec lets a model take
any width 1..61 as an argument (U12), this model fixes the hardware's own value (notes/assumptions/16.md). -/
def Config.msgLenBits : Nat := 61

/-- The values the spec leaves open: `Config.freeBits n d` is the value of an n-bit register or output whose value is
"unspecified" (R41, R176, R230), at draw number `d`. It has no body, so nothing can be proved of which value it is.
A draw is used once: `State.draws` counts them. -/
opaque Config.freeBits (width draw : Nat) : BitVec width

end Sys2Proof
end

