-- ==== Sys2Proof/Syntax.lean ====
section
/-! DEFINITION. The instructions: the two host commands and the eight micro-operations of
spec/opcode_table.json (spec/30_encoding.md R80, R82, R87; spec/00_scope.md R2). -/

namespace Sys2Proof

/-- One constructor per instruction of the opcode table. Micro-operations carry no operand fields (R85): their operands
are the registers, indexed by T and BLK. The table's two rows named EXP are one micro-operation with one rule (R88), so
they are one constructor. -/
inductive Instr where
  /-- Command `INIT` (R171). Its ARG is not decoded (R83). -/
  | init
  /-- Command `START n` (R172), `n` the message length in bytes as a host writes it (R94). -/
  | start (n : Nat)
  /-- Micro-operation BEGIN (R185). -/
  | begin
  /-- Micro-operation LDW (R141). -/
  | ldw
  /-- Micro-operation EXP (R143). -/
  | exp
  /-- Micro-operation SEED (R150). -/
  | seed
  /-- Micro-operation RND (R151). -/
  | rnd
  /-- Micro-operation FOLD (R153). -/
  | fold
  /-- Micro-operation NEXT (R187). -/
  | next
  /-- Micro-operation SER (R165). -/
  | ser
  deriving DecidableEq, Repr

end Sys2Proof
end

