-- ==== Sys2Proof/WellFormed.lean ====
section
/-! DEFINITION. Which instructions can be expressed in a word (spec/30_encoding.md R84, R94; spec/60_exceptions.md R202). -/

namespace Sys2Proof

/-- `START n` assembles for 0 ≤ n < 2^MSG_LEN_BITS and no other n (R94, R84): "a length of 2^61 bytes or more cannot be
presented to the block at all" (R202). Every other instruction is well formed. -/
def Instr.wf : Instr → Bool
  | .start n => decide (n < 2 ^ Config.msgLenBits)
  | .init | .begin | .ldw | .exp | .seed | .rnd | .fold | .next | .ser => true

end Sys2Proof
end

