-- ==== Sys2Proof/Decode.lean ====
section
/-! DEFINITION. The phase codes, the two word formats, the decoder (total, rejecting by name) and the encoder
(spec/10_state.md R32; spec/30_encoding.md R80 to R93). -/

namespace Sys2Proof

/-! ### Phase codes (R32) -/

/-- INIT. -/
@[simp] abbrev Phase.init : PhaseCode := 0#3
/-- PADDING_DONE. -/
@[simp] abbrev Phase.paddingDone : PhaseCode := 1#3
/-- SCHEDULING. -/
@[simp] abbrev Phase.scheduling : PhaseCode := 2#3
/-- COMPRESSING. -/
@[simp] abbrev Phase.compressing : PhaseCode := 3#3
/-- FINALIZED. -/
@[simp] abbrev Phase.finalized : PhaseCode := 4#3

/-! ### The two formats -/

/-- A word the block decodes: one of format `CMD` or one of format `SEQ`, and nothing else (R80). -/
inductive CodeWord where
  | cmd (w : CmdWord)
  | seq (w : SeqWord)
  deriving DecidableEq, Repr

/-- Why a word selects no instruction. -/
inductive Reject where
  /-- A command word with OP = 0b000 or OP in 0b011..0b111: reserved (R82, R90). -/
  | reservedOpcode
  /-- A sequencer word with PHASE = INIT or FINALIZED: the engine has no step (R89). -/
  | quiescentPhase
  /-- A sequencer word that no execution from reset forms: the engine is stuck (R91). -/
  | unreachableWord
  deriving DecidableEq, Repr

/-- `OP`, bits 63:61 of a command word (R81). -/
def cmdOp (w : CmdWord) : BitVec 3 := w.extractLsb' 61 3

/-- `ARG`, bits 60:0 of a command word (R81), taken as it stands (R83). -/
def cmdArg (w : CmdWord) : MsgLen := w.extractLsb' 0 61

/-- A command word from its fields, OP the more significant part (R81). -/
def mkCmdWord (op : BitVec 3) (arg : MsgLen) : CmdWord := op ++ arg

/-- A sequencer word from its fields: bit 10 LAST, bits 9:7 PHASE, bits 6:0 T (R86). -/
def mkSeqWord (last : Bool) (phase : PhaseCode) (t : StepIdx) : SeqWord :=
  BitVec.ofBool last ++ phase ++ t

/-- `LAST`, bit 10 of a sequencer word (R86). -/
def seqLast (w : SeqWord) : Bool := w.getLsbD 10

/-- `PHASE`, bits 9:7 of a sequencer word (R86). -/
def seqPhase (w : SeqWord) : PhaseCode := w.extractLsb' 7 3

/-- `T`, bits 6:0 of a sequencer word (R86). -/
def seqT (w : SeqWord) : StepIdx := w.extractLsb' 0 7

/-! ### Format SEQ: the rows of R87 -/

/-- One row of R87: a word w selects the row when w AND mask = match (R96). -/
structure SeqRow where
  op : Instr
  pattern : SeqWord
  mask : SeqWord
  deriving DecidableEq, Repr

/-- A word selects a row when it has the row's pattern under the row's mask (R96). -/
def SeqRow.selects (r : SeqRow) (w : SeqWord) : Bool := w &&& r.mask == r.pattern

/-- The nine rows of R87, in the order of the rule. -/
def seqTable : List SeqRow :=
  [ ⟨.begin, 0x080#11, 0x380#11⟩,
    ⟨.ldw,   0x100#11, 0x3F0#11⟩,
    ⟨.exp,   0x110#11, 0x3F0#11⟩,
    ⟨.exp,   0x120#11, 0x3E0#11⟩,
    ⟨.seed,  0x140#11, 0x3FF#11⟩,
    ⟨.rnd,   0x180#11, 0x3C0#11⟩,
    ⟨.fold,  0x1C0#11, 0x3FF#11⟩,
    ⟨.next,  0x1C1#11, 0x7FF#11⟩,
    ⟨.ser,   0x5C1#11, 0x7FF#11⟩ ]

/-- Micro-operation selection (R87): the row the word matches; where none matches, quiescent (R89) or unreachable (R91). -/
def decodeSeq (w : SeqWord) : Except Reject Instr :=
  match seqTable.find? (fun r => r.selects w) with
  | some r => .ok r.op
  | none =>
    if seqPhase w = Phase.init ∨ seqPhase w = Phase.finalized then .error .quiescentPhase
    else .error .unreachableWord

/-! ### Format CMD: the rows of R82 -/

/-- The mask of both command rows: the three bits of OP (R82). -/
def cmdMask : CmdWord := 0xE000000000000000#64

/-- Command decoding (R82): OP 0b001 is INIT whatever ARG is (R83), OP 0b010 is START with L = ARG, the rest are reserved. -/
def decodeCmd (w : CmdWord) : Except Reject Instr :=
  if w &&& cmdMask = 0x2000000000000000#64 then .ok .init
  else if w &&& cmdMask = 0x4000000000000000#64 then .ok (.start (cmdArg w).toNat)
  else .error .reservedOpcode

/-- The decoder: total on every word of either format. -/
def decode : CodeWord → Except Reject Instr
  | .cmd w => decodeCmd w
  | .seq w => decodeSeq w

/-! ### The encoder -/

/-- The word of an instruction, its undecoded bits 0. For a micro-operation it is the word of the least T that selects it
(R87), with LAST as the row has it. A START that is not well-formed has no word: its length is never truncated (R202). -/
def encode : Instr → Option CodeWord
  | .init => some (.cmd (mkCmdWord 0b001#3 0#61))
  | .start n => if (Instr.start n).wf then some (.cmd (mkCmdWord 0b010#3 (BitVec.ofNat 61 n))) else none
  | .begin => some (.seq (mkSeqWord false Phase.paddingDone 0#7))
  | .ldw => some (.seq (mkSeqWord false Phase.scheduling 0#7))
  | .exp => some (.seq (mkSeqWord false Phase.scheduling 16#7))
  | .seed => some (.seq (mkSeqWord false Phase.scheduling 64#7))
  | .rnd => some (.seq (mkSeqWord false Phase.compressing 0#7))
  | .fold => some (.seq (mkSeqWord false Phase.compressing 64#7))
  | .next => some (.seq (mkSeqWord false Phase.compressing 65#7))
  | .ser => some (.seq (mkSeqWord true Phase.compressing 65#7))

/-! ### The opcode table's numbering -/

/-- The instruction the decoder reads from the bits `w` of a row of spec/opcode_table.json: `nbits` is 16 for a `SEQ` row
(11 bits, in whole bytes) and 64 for a `CMD` row. A `SEQ` word has 11 bits, so nothing is read from a wider number. -/
def decodeTableWord (nbits w : Nat) : Option Instr :=
  if nbits ≤ 16 then
    if w < 2 ^ 11 then (decodeSeq (BitVec.ofNat 11 w)).toOption else none
  else
    if w < 2 ^ 64 then (decodeCmd (BitVec.ofNat 64 w)).toOption else none

end Sys2Proof
end

