-- ==== Sys2Proof/Machine/State.lean ====
section
/-! DEFINITION. The state of one SHA256-CORE instance, of the source and of the host beside it, and the state after reset
(spec/10_state.md R20 to R45; spec/46_sequencer.md R186; spec/70_reset_and_hazards.md R230). -/

namespace Sys2Proof.Machine

/-- Why the machine stops. The block raises no exception (R200): both are the spec's *stuck* states, in which the engine
has no enabled step and the run is not final. -/
inductive Fault where
  /-- Raised by LDW: the source does not answer the read of message byte `addr` (R56, R203: stuck until reset). Safe. -/
  | sourceSilent (addr : Nat)
  /-- Raised by the step function: the sequencer word matches no row and PHASE is not quiescent (R91: stuck until reset).
  Safe. -/
  | stuckSequencer
  deriving DecidableEq, Repr

/-- Why an instruction is given no meaning. -/
inductive Refusal where
  /-- Raised by an arm of exec whose instruction has no meaning yet. Safe. -/
  | notModelled (mnemonic : String)
  /-- Raised by a meaning asked of a state in which the hardware does not select its micro-operation (R87) or accept its
  command (R170). The step function never asks this. Safe. -/
  | notEnabled
  /-- Raised by LDW when BLK ≥ NBLK(LEN): PM is undefined at the address (R126; U7: refuse). No execution from reset
  gets there (R43). Safe. -/
  | outsidePaddedMessage
  deriving DecidableEq, Repr

/-- The message space MSG (R51) as the source answers it: a list of (address, byte), addresses strictly rising. An address
that is not listed is one at which the source does not answer (R56, R203; notes/assumptions/3.md). -/
abbrev Memory := List Host.Cell

/-- One completed transfer on the message port: the address MADDR and the answer MDATA (R54). -/
structure PortRead where
  maddr : MsgLen
  mdata : Byte
  deriving DecidableEq, Repr

/-- What a host sees when it observes the outputs (R174 to R176). -/
inductive Observation where
  /-- The outputs PHASE, READY and DONE (R175). -/
  | status (phase : PhaseCode) (ready done : Bool)
  /-- The output DIGEST (R176). -/
  | digest (value : BitVec 256)
  deriving DecidableEq, Repr

/-- Why a host does not start a computation: the two errors that are raised outside the block, before START, and have no
code and no state inside it (R201, R202). -/
inductive HostError where
  /-- `InputUnavailable`: the source cannot answer every read of the message (R201). -/
  | inputUnavailable
  /-- `InputTooLarge`: the length is 2^61 bytes or more, which no command can carry (R202). -/
  | inputTooLarge
  deriving DecidableEq, Repr

/-- One act of the block's partners, the host (R186) and the source's owner (R240, R241). `State.script` lists those to
come; notes/assumptions/5.md says where each lands. -/
inductive HostEvent where
  /-- Present a command word on the CMD port; it is held until READY = 1 (R170). -/
  | command (w : CmdWord)
  /-- Assert and release RESET: the script word `RESET` (R95, R230). -/
  | reset
  /-- Observe the outputs repeatedly until DONE = 1: the script word `WAIT` (R95). -/
  | wait
  /-- Observe PHASE, READY and DONE once (R174, R175). -/
  | observe
  /-- Read DIGEST once (R174, R176). -/
  | readDigest
  /-- Let one engine step go by, or let a stuck engine wait, before the next event (R191, R203). -/
  | pass
  /-- From now on the source answers `b` at address `a` (R55, R240, R241). -/
  | supply (a : MsgLen) (b : Byte)
  /-- From now on the source does not answer at address `a` (R203). -/
  | withdraw (a : MsgLen)
  deriving DecidableEq, Repr

/-- The machine. The first eight fields are the registers of R20 (its tables IV and K are constants: Machine/Tables.lean).
`held` is the progress of a step that waits (R56, notes/assumptions/6.md). The rest is not state of the block: `source` is
the message the source holds (R39), `script` what the host will do, and `transfers`, `seen` and `draws` are the model's own
records (notes/assumptions/17.md). -/
structure State where
  /-- HashState `H[0..7]` (R21). -/
  h : Vector Word 8
  /-- MessageSchedule `W[0..63]` (R26). -/
  w : Vector Word 64
  /-- WorkingVariables `V[0..7]` = a, b, c, d, e, f, g, h (R28). -/
  v : Vector Word 8
  /-- `DIGEST[0..31]` (R30). -/
  digest : Vector Byte 32
  /-- `LEN`, the message length in bytes (R31). -/
  len : MsgLen
  /-- `PHASE` (R32). -/
  phase : PhaseCode
  /-- `BLK`, the block index (R33). -/
  blk : BlkIdx
  /-- `T`, the step counter inside the phase (R34). -/
  t : StepIdx
  /-- The answers that the LDW step under way has got while it waits for another, oldest first (R56, R62); empty when no step
  is held. -/
  held : List Byte
  /-- The message space as the source answers it (R51, R55). -/
  source : Memory
  /-- What the host and the source's owner do from here on, first first (R95, R186, R191). -/
  script : List HostEvent
  /-- The model's own record: the transfers on the message port so far, oldest first (R54, R67). -/
  transfers : List PortRead
  /-- The model's own record: the observations the host has made, oldest first (R174). -/
  seen : List Observation
  /-- The model's own counter of free values drawn (`Config.freeBits`). -/
  draws : Nat
  deriving DecidableEq, Repr

/-- The state right after reset (R41, R230): PHASE = INIT and H = IV are the spec's. For LEN, BLK, T, W, V and DIGEST the
spec says "unspecified" and "do not choose zero" (U1); DESIGN CHOICE, unsafe: all ones (notes/assumptions/1.md). No step
is held; no message, no script, nothing recorded. -/
def State.reset : State where
  h := iv
  w := Vector.replicate 64 0xFFFFFFFF#32
  v := Vector.replicate 8 0xFFFFFFFF#32
  digest := Vector.replicate 32 0xFF#8
  len := 0x1FFFFFFFFFFFFFFF#61
  phase := Phase.init
  blk := 0xFFFFFFFFFFFFFF#56
  t := 0x7F#7
  held := []
  source := []
  script := []
  transfers := []
  seen := []
  draws := 0

end Sys2Proof.Machine
end

