-- ==== Sys2Proof/Machine/Ops.lean ====
section
/-! DEFINITION. The named operations over the message space and the registers, and reset
(spec/20_memory.md R54 to R57; spec/46_sequencer.md R189; spec/70_reset_and_hazards.md R230). The block takes no exception
and returns from none (spec/60_exceptions.md R200, R209, R210): reset is the one event that changes control from outside. -/

namespace Sys2Proof.Machine

/-! ### Outcomes -/

/-- The outcome of a part of a step: a value, or the reason the step stops. -/
abbrev Result (α : Type) := Host.Outcome α Fault Refusal

/-- Go on with the value, or stop for the same reason. -/
def andThen {α β : Type} (o : Result α) (f : α → Result β) : Result β :=
  match o with
  | .next a => f a
  | .fault r => .fault r
  | .refused r => .refused r

/-! ### The message space -/

/-- What the source answers at an address: a byte, or nothing for ever (R56, R203). -/
def Memory.read : Memory → Nat → Option Byte
  | [], _ => none
  | c :: m, a => if c.1 = a then some c.2 else Memory.read m a

/-- The source with its answer at one address set. -/
def Memory.write : Memory → Nat → Byte → Memory
  | [], a, b => [(a, b)]
  | c :: m, a, b =>
    if a < c.1 then (a, b) :: c :: m
    else if a = c.1 then (a, b) :: m
    else c :: Memory.write m a b

/-- The source with its answer at one address taken away. -/
def Memory.erase (m : Memory) (a : Nat) : Memory := m.filter fun c => c.1 != a

/-- The canonical form: addresses strictly rising, each within the 61-bit space (R51). Nothing is listed but answers, so no
entry equals what an unlisted address reads as. -/
abbrev Memory.wf (m : Memory) : Prop :=
  m.Pairwise (fun c d => c.1 < d.1) ∧ ∀ c ∈ m, c.1 < 2 ^ 61

/-! ### The message port -/

/-- `MemRead(MSG, addr, 1)` (R56): one transfer, which is recorded, and whose answer the step under way keeps until it
completes; if the source never answers, the step never completes (R203). Its callers ask only below LEN (R57). -/
def memRead (s : State) (addr : Nat) : Result (Byte × State) :=
  match Memory.read s.source addr with
  | some b => .next (b, { s with
      transfers := s.transfers ++ [⟨BitVec.ofNat 61 addr, b⟩]
      held := s.held ++ [b] })
  | none => .fault (.sourceSilent addr)

/-! ### The sequencer -/

/-- `(PHASE, BLK, T) <- (phase, blk, t)` (R13, R35). -/
def setSequencer (s : State) (phase : PhaseCode) (blk : BlkIdx) (t : StepIdx) : State :=
  { s with phase := phase, blk := blk, t := t }

/-- `T <- T + 1`, the way LDW, EXP and RND move on (R34, R189). -/
def advance (s : State) : State := { s with t := s.t + 1#7 }

/-! ### Reset -/

/-- How many values `resetBlock` draws: LEN, BLK, T, 64 words of W, 8 of V and 32 bytes of DIGEST. -/
def resetDraws : Nat := 107

/-- A reset (R230): PHASE <- INIT, H <- IV, and every other register is unspecified, a free value drawn for it (U1: any
value; notes/assumptions/2.md). A held step is abandoned (R231). The source and the records outside the block are not
touched: message reads already made are not undone (R232). -/
def resetBlock (s : State) : State :=
  { s with
    h := iv
    phase := Phase.init
    len := Config.freeBits 61 s.draws
    blk := Config.freeBits 56 (s.draws + 1)
    t := Config.freeBits 7 (s.draws + 2)
    w := Vector.ofFn fun i => Config.freeBits 32 (s.draws + 3 + i.val)
    v := Vector.ofFn fun i => Config.freeBits 32 (s.draws + 67 + i.val)
    digest := Vector.ofFn fun i => Config.freeBits 8 (s.draws + 75 + i.val)
    held := []
    draws := s.draws + resetDraws }

end Sys2Proof.Machine
end

