-- ==== Sys2Proof/Machine/Bytes.lean ====
section
/-! DEFINITION. Byte order: every multi-byte value is big-endian, most significant byte first (spec/00_scope.md R12;
spec/20_memory.md R58 to R60). -/

namespace Sys2Proof.Machine

/-- `be32(b0, b1, b2, b3)`: the word of four bytes given in sequence order (R12, R58). -/
def be32 (b0 b1 b2 b3 : Byte) : Word := b0 ++ b1 ++ b2 ++ b3

/-- Byte k of `ser32(w)`, k = 0..3: bits 31−8k : 24−8k of the word (R12, R59). -/
def ser32 (w : Word) (k : Fin 4) : Byte := w.extractLsb' (24 - 8 * k.val) 8

/-- Byte k of `ser64(v)`, k = 0..7: bits 63−8k : 56−8k of the 64-bit value (R12). -/
def ser64 (v : BitVec 64) (k : Fin 8) : Byte := v.extractLsb' (56 - 8 * k.val) 8

end Sys2Proof.Machine
end

