-- ==== Sys2Proof/Machine/Padding.lean ====
section
/-! DEFINITION. The padding controller's functions of the length (spec/41_padding.md R121 to R125). They are combinational
and hold no state (spec/10_state.md R37); NBLK and ZPAD are computed on exact integers. -/

namespace Sys2Proof.Machine

/-- `NBLK(L)`, the number of 64-byte blocks of the padded message (R121). -/
def nblk (len : Nat) : Nat := (len + 72) / 64

/-- `ZPAD(L)`, the number of 0x00 bytes (R122). -/
def zpad (len : Nat) : Nat := 64 * nblk len - len - 9

/-- `BITLEN = 8·L`, 64 bits: LEN ++ 0b000 (R125). -/
def bitLen (len : MsgLen) : BitVec 64 := len ++ 0b000#3

/-- `LF(k)`, byte k of the length field, most significant first (R125). -/
def lengthField (len : MsgLen) (k : Fin 8) : Byte := ser64 (bitLen len) k

end Sys2Proof.Machine
end

