-- ==== Sys2Proof/Machine/Flags.lean ====
section
/-! DEFINITION. The three status signals, all of them functions of the control registers (spec/10_state.md R36), and the
sequencer word made of them (spec/30_encoding.md R86). There are no arithmetic flags (R36). -/

namespace Sys2Proof.Machine

/-- `READY`: 1 exactly when PHASE is INIT or FINALIZED (R36, R175). -/
def ready (s : State) : Bool := s.phase == Phase.init || s.phase == Phase.finalized

/-- `DONE`: 1 exactly when PHASE is FINALIZED (R36, R175). -/
def done (s : State) : Bool := s.phase == Phase.finalized

/-- `LAST`: 1 exactly when BLK + 1 = NBLK(LEN), compared as exact integers (R36, R188). -/
def last (s : State) : Bool := s.blk.toNat + 1 == nblk s.len.toNat

/-- The sequencer word of the state (R86). -/
def seqWord (s : State) : SeqWord := mkSeqWord (last s) s.phase s.t

/-- The micro-operation the engine executes next (R87), or why it has none (R89, R91). -/
def selected (s : State) : Except Reject Instr := decodeSeq (seqWord s)

end Sys2Proof.Machine
end

