-- ==== Sys2Proof/Machine/Commands.lean ====
section
/-! DEFINITION. The host commands INIT and START (spec/45_host_commands.md R170 to R172). -/

namespace Sys2Proof.Machine

/-- INIT (R171): H <- IV, PHASE <- INIT. Accepted while READY = 1 (R170). -/
def execInit (s : State) : Result State :=
  if ready s then .next { s with h := iv, phase := Phase.init }
  else .refused .notEnabled

/-- START (R172): in phase INIT, LEN <- L and PHASE <- PADDING_DONE; in FINALIZED, and for a length of more than
MSG_LEN_BITS bits (R84), the command is discarded and no state changes (R90). Accepted while READY = 1 (R170). -/
def execStart (n : Nat) (s : State) : Result State :=
  if ready s then
    if s.phase = Phase.init ∧ n < 2 ^ Config.msgLenBits then
      .next { s with len := BitVec.ofNat 61 n, phase := Phase.paddingDone }
    else .next s
  else .refused .notEnabled

end Sys2Proof.Machine
end

