-- ==== Sys2Proof/Machine/WordOps.lean ====
section
/-! DEFINITION. The word functions of the schedule and of the round (spec/40_word_ops.md R100 to R111). `+` on `Word` is
`+32` (R100); `&&&`, `^^^` and `~~~` are the 32-bit AND, XOR and NOT (R105). -/

namespace Sys2Proof.Machine

/-- `rotr(x, n)` (R103), defined for 1 ≤ n ≤ 31 and for no other amount (U6). -/
def rotr (x : Word) (n : Nat) (_amount : 1 ≤ n ∧ n ≤ 31 := by decide) : Word := (x >>> n) ||| (x <<< (32 - n))

/-- `shr(x, n)` (R104), defined for 1 ≤ n ≤ 31 and for no other amount (U6). -/
def shr (x : Word) (n : Nat) (_amount : 1 ≤ n ∧ n ≤ 31 := by decide) : Word := x >>> n

/-- `sigma0` (R106). -/
def sigma0 (x : Word) : Word := rotr x 7 ^^^ rotr x 18 ^^^ shr x 3

/-- `sigma1` (R107). -/
def sigma1 (x : Word) : Word := rotr x 17 ^^^ rotr x 19 ^^^ shr x 10

/-- `S0` (R108). -/
def bigS0 (x : Word) : Word := rotr x 2 ^^^ rotr x 13 ^^^ rotr x 22

/-- `S1` (R109). -/
def bigS1 (x : Word) : Word := rotr x 6 ^^^ rotr x 11 ^^^ rotr x 25

/-- `ch` (R110). -/
def ch (x y z : Word) : Word := (x &&& y) ^^^ (~~~x &&& z)

/-- `maj` (R111). -/
def maj (x y z : Word) : Word := (x &&& y) ^^^ (x &&& z) ^^^ (y &&& z)

end Sys2Proof.Machine
end

