-- ==== Sys2Proof/Machine/Compression.lean ====
section
/-! DEFINITION. The compression engine's micro-operations SEED, RND and FOLD (spec/43_compression.md R150, R151, R153). -/

namespace Sys2Proof.Machine

/-- SEED (R150), selected when PHASE = SCHEDULING and T = 64: V <- H, T <- 0, PHASE <- COMPRESSING. -/
def execSeed (s : State) : Result State :=
  if s.phase = Phase.scheduling ∧ s.t = 64#7 then
    .next (setSequencer { s with v := s.h } Phase.compressing s.blk 0#7)
  else .refused .notEnabled

/-- `temp1` of a round (R151): h +32 S1(e) +32 ch(e, f, g) +32 K[j] +32 W[j]. -/
def temp1 (v : Vector Word 8) (kj wj : Word) : Word :=
  v[7] + bigS1 v[4] + ch v[4] v[5] v[6] + kj + wj

/-- `temp2` of a round (R151): S0(a) +32 maj(a, b, c). -/
def temp2 (v : Vector Word 8) : Word := bigS0 v[0] + maj v[0] v[1] v[2]

/-- The eight simultaneous assignments of a round, in terms of the old values (R151, R152). -/
def compressRound (v : Vector Word 8) (kj wj : Word) : Vector Word 8 :=
  #v[temp1 v kj wj + temp2 v, v[0], v[1], v[2], v[3] + temp1 v kj wj, v[4], v[5], v[6]]

/-- RND (R151), selected when PHASE = COMPRESSING and 0 ≤ T ≤ 63: V <- the round with K[T] and W[T], T <- T + 1. -/
def execRnd (s : State) : Result State :=
  if h : s.phase = Phase.compressing ∧ s.t.toNat ≤ 63 then
    .next (advance { s with v := compressRound s.v kTable[s.t.toNat] s.w[s.t.toNat] })
  else .refused .notEnabled

/-- H[i] +32 V[i] for i = 0..7 (R153). -/
def foldWords (h v : Vector Word 8) : Vector Word 8 := Vector.ofFn fun i : Fin 8 => h[i] + v[i]

/-- FOLD (R153), selected when PHASE = COMPRESSING and T = 64: H <- H +32 V element by element, T <- 65. -/
def execFold (s : State) : Result State :=
  if s.phase = Phase.compressing ∧ s.t = 64#7 then
    .next { s with h := foldWords s.h s.v, t := 65#7 }
  else .refused .notEnabled

end Sys2Proof.Machine
end

