-- ==== Sys2Proof/Machine/Operands.lean ====
section
/-! DEFINITION. The operand the padding controller answers LDW with: byte i of the padded message, and the word of four of
them (spec/41_padding.md R126; spec/20_memory.md R52, R57, R58, R62, R63). Every other operand is a register read in its rule. -/

namespace Sys2Proof.Machine

/-- `PM(i)` (R126): a message byte through the port for i < LEN, else 0x80, 0x00 or a byte of the length field. PM is
undefined for i ≥ 64·NBLK(LEN); no rule evaluates it there, and the model refuses it (U7). -/
def pmByte (s : State) (i : Nat) : Result (Byte × State) :=
  if i < s.len.toNat then memRead s i
  else if i = s.len.toNat then .next (0x80#8, s)
  else if i < 64 * nblk s.len.toNat - 8 then .next (0x00#8, s)
  else if h : i - (64 * nblk s.len.toNat - 8) < 8 then
    .next (lengthField s.len ⟨i - (64 * nblk s.len.toNat - 8), h⟩, s)
  else .refused .outsidePaddedMessage

/-- Byte k of the word at PM addresses a .. a + 3, for the step under way: a message byte that the step already has is not
read again (R63); any other is `PM(a + k)`. -/
def pmWordByte (s : State) (a k : Nat) : Result (Byte × State) :=
  match if a + k < s.len.toNat then s.held[k]? else none with
  | some b => .next (b, s)
  | none => pmByte s (a + k)

/-- The big-endian word at PM addresses a .. a + 3, the four bytes evaluated in ascending order (R58, R67, R141). -/
def pmWord (s : State) (a : Nat) : Result (Word × State) :=
  andThen (pmWordByte s a 0) fun (b0, s) =>
  andThen (pmWordByte s a 1) fun (b1, s) =>
  andThen (pmWordByte s a 2) fun (b2, s) =>
  andThen (pmWordByte s a 3) fun (b3, s) =>
  .next (be32 b0 b1 b2 b3, s)

/-- The bytes k, k + 1, .. of the word at PM address a, `n` of them, as far as they can be had: the state that waits at the
first read the source does not answer (R56; the reads of one step are not atomic as a group, R62). -/
def pmWordSoFar (s : State) (a k : Nat) : Nat → State
  | 0 => s
  | n + 1 =>
    match pmWordByte s a k with
    | .next (_, s') => pmWordSoFar s' a (k + 1) n
    | .fault _ => s
    | .refused _ => s

end Sys2Proof.Machine
end

