-- ==== Sys2Proof/Machine/Schedule.lean ====
section
/-! DEFINITION. The message schedule expander's micro-operations LDW and EXP (spec/42_schedule.md R141, R143). -/

namespace Sys2Proof.Machine

/-- The PM address of the word LDW loads: 64·BLK + 4·T (R141). -/
def ldwAddress (s : State) : Nat := 64 * s.blk.toNat + 4 * s.t.toNat

/-- LDW (R141), selected when PHASE = SCHEDULING and 0 ≤ T ≤ 15: W[T] <- be32(PM(a), .., PM(a + 3)), T <- T + 1. No byte
is held once it completes. -/
def execLdw (s : State) : Result State :=
  if h : s.phase = Phase.scheduling ∧ s.t.toNat ≤ 15 then
    andThen (pmWord s (ldwAddress s)) fun (word, s') =>
    .next (advance { s' with w := s'.w.set s.t.toNat word, held := [] })
  else .refused .notEnabled

/-- An LDW step that the source holds up: the reads before the unanswered one are made and their answers kept, and none of the
step's writes is performed (R56, R203, R231). -/
def holdLdw (s : State) : State := pmWordSoFar s (ldwAddress s) 0 4

/-- The schedule recurrence at index t (R143). -/
def expandedWord (w : Vector Word 64) (t : Nat) (h : 16 ≤ t ∧ t ≤ 63) : Word :=
  sigma1 w[t - 2] + w[t - 7] + sigma0 w[t - 15] + w[t - 16]

/-- EXP (R143), selected when PHASE = SCHEDULING and 16 ≤ T ≤ 63: W[T] <- the recurrence, T <- T + 1. -/
def execExp (s : State) : Result State :=
  if h : s.phase = Phase.scheduling ∧ 16 ≤ s.t.toNat ∧ s.t.toNat ≤ 63 then
    .next (advance { s with w := s.w.set s.t.toNat (expandedWord s.w s.t.toNat h.2) })
  else .refused .notEnabled

end Sys2Proof.Machine
end

