-- ==== Sys2Proof/Machine/Sequencer.lean ====
section
/-! DEFINITION. The micro-operations of pure control, BEGIN and NEXT (spec/46_sequencer.md R185, R187). -/

namespace Sys2Proof.Machine

/-- BEGIN (R185), selected when PHASE = PADDING_DONE: (PHASE, BLK, T) <- (SCHEDULING, 0, 0). -/
def execBegin (s : State) : Result State :=
  if s.phase = Phase.paddingDone then .next (setSequencer s Phase.scheduling 0#56 0#7)
  else .refused .notEnabled

/-- NEXT (R187), selected when PHASE = COMPRESSING, T = 65 and LAST = 0: (PHASE, BLK, T) <- (SCHEDULING, BLK + 1, 0).
BLK + 1 fits 56 bits whenever BLK + 1 < NBLK(LEN) (R33); notes/assumptions/11.md has the states no run reaches. -/
def execNext (s : State) : Result State :=
  if s.phase = Phase.compressing ∧ s.t = 65#7 ∧ last s = false then
    .next (setSequencer s Phase.scheduling (s.blk + 1#56) 0#7)
  else .refused .notEnabled

end Sys2Proof.Machine
end

