-- ==== Sys2Proof/Machine/Serializer.lean ====
section
/-! DEFINITION. The state serializer's micro-operation SER (spec/44_finalizer.md R165, R167). -/

namespace Sys2Proof.Machine

/-- The 32 bytes of H: byte 4·i + k is byte k of ser32(H[i]) (R165, R167). -/
def serialize (h : Vector Word 8) : Vector Byte 32 :=
  Vector.ofFn fun k : Fin 32 => ser32 h[k.val / 4] ⟨k.val % 4, Nat.mod_lt _ (by decide)⟩

/-- SER (R165), selected when PHASE = COMPRESSING, T = 65 and LAST = 1: DIGEST <- the bytes of H, PHASE <- FINALIZED. -/
def execSer (s : State) : Result State :=
  if s.phase = Phase.compressing ∧ s.t = 65#7 ∧ last s = true then
    .next { s with digest := serialize s.h, phase := Phase.finalized }
  else .refused .notEnabled

end Sys2Proof.Machine
end

