-- ==== Sys2Proof/Machine/Dispatch.lean ====
section
/-! DEFINITION. One arm per instruction of spec/opcode_table.json. -/

namespace Sys2Proof.Machine

def exec (i : Instr) (s : State) : Host.Outcome State Fault Refusal :=
  match i with
  | .init => Sys2Proof.Machine.execInit s
  | .start n => Sys2Proof.Machine.execStart n s
  | .begin => Sys2Proof.Machine.execBegin s
  | .ldw => Sys2Proof.Machine.execLdw s
  | .exp => Sys2Proof.Machine.execExp s
  | .seed => Sys2Proof.Machine.execSeed s
  | .rnd => Sys2Proof.Machine.execRnd s
  | .fold => Sys2Proof.Machine.execFold s
  | .next => Sys2Proof.Machine.execNext s
  | .ser => Sys2Proof.Machine.execSer s

end Sys2Proof.Machine
end

