-- ==== Sys2Proof/Machine/Outputs.lean ====
section
/-! DEFINITION. The output ports and their observation (spec/45_host_commands.md R174 to R176). -/

namespace Sys2Proof.Machine

/-- The DIGEST port: bits [255 − 8k : 248 − 8k] carry DIGEST[k] (R176). -/
def digestPort (d : Vector Byte 32) : BitVec 256 :=
  d.toList.foldl (fun acc b => (acc <<< 8) ||| b.setWidth 256) 0#256

/-- The value on the DIGEST port. It is unspecified while DONE = 0 (R176, R242): a free value, drawn afresh at each reading
(U2; notes/assumptions/8.md). -/
def digestOutput (s : State) : BitVec 256 :=
  if done s then digestPort s.digest else Config.freeBits 256 s.draws

/-- One observation of PHASE, READY and DONE by the host (R175): no register of the block changes (R174). -/
def observe (s : State) : State :=
  { s with seen := s.seen ++ [.status s.phase (ready s) (done s)] }

/-- One reading of DIGEST by the host (R176): no register of the block changes (R174). -/
def readDigest (s : State) : State :=
  { s with seen := s.seen ++ [.digest (digestOutput s)], draws := s.draws + 1 }

end Sys2Proof.Machine
end

