-- ==== Sys2Proof/Machine/Engine.lean ====
section
/-! DEFINITION. What one step is: a micro-operation of the engine, an accepted command, a reset, or another act of the
script (spec/46_sequencer.md R186, R191; spec/45_host_commands.md R170; spec/60_exceptions.md R208), and where a given
word is put for the next step to run it. -/

namespace Sys2Proof.Machine

/-- The engine's part: run the selected micro-operation (R87); in a quiescent phase there is none and nothing changes (R89,
R217); with an unreachable sequencer word the engine is stuck (R91). -/
def engineStep (s : State) : Result State :=
  match selected s with
  | .ok i => exec i s
  | .error .unreachableWord => .fault .stuckSequencer
  | .error _ => .next s

/-- The transfer of a command word while READY = 1: the command it encodes, or a discarded word, which changes nothing
(R90, R170). -/
def transferCommand (w : CmdWord) (s : State) : Result State :=
  match decodeCmd w with
  | .ok i => exec i s
  | .error _ => .next s

/-- The step whose next script event is `e`, with `rest` to come after it. A reset happens at once, whatever else is enabled
(R208, R231). A command is held while READY = 0 and a WAIT while DONE = 0; meanwhile the engine steps (R170, R95).
`pass` lets the engine take one step; an LDW that the source holds up makes the reads it can and waits, and an engine with an
unreachable sequencer word stays as it is (R56, R91, R203). -/
def eventStep (e : HostEvent) (rest : List HostEvent) (s : State) : Result State :=
  match e with
  | .reset => .next (resetBlock { s with script := rest })
  | .observe => .next (observe { s with script := rest })
  | .readDigest => .next (readDigest { s with script := rest })
  | .supply a b => .next { s with script := rest, source := Memory.write s.source a.toNat b }
  | .withdraw a => .next { s with script := rest, source := Memory.erase s.source a.toNat }
  | .command w => if ready s then transferCommand w { s with script := rest } else engineStep s
  | .wait => if done s then .next { s with script := rest } else engineStep s
  | .pass =>
    match engineStep { s with script := rest } with
    | .fault (.sourceSilent _) => .next (holdLdw { s with script := rest })
    | .fault .stuckSequencer => .next { s with script := rest }
    | .next t => .next t
    | .refused r => .refused r

/-- One step of the machine: the script's next event, or the engine's where nothing is scripted. -/
def machineStep (s : State) : Result State :=
  match s.script with
  | [] => engineStep s
  | e :: rest => eventStep e rest s

/-- The host's part of `hash` for a message of `n` bytes that the source is to hold (R177): where the length is 2^61 or more,
or the source cannot answer some byte, the host stops and issues nothing (R201, R202; the length is never truncated);
otherwise the script of the pseudo-instruction `HASH n` (R95): INIT, START n, WAIT, then read DIGEST. -/
def hashScript (source : Memory) (n : Nat) : Except HostError (List HostEvent) :=
  if 2 ^ Config.msgLenBits ≤ n then .error .inputTooLarge
  else if ∀ i, i < n → (Memory.read source i).isSome = true then
    .ok [.command (mkCmdWord 0b001#3 0#61), .command (mkCmdWord 0b010#3 (BitVec.ofNat 61 n)), .wait, .readDigest]
  else .error .inputUnavailable

/-! ### Placing a word -/

/-- The source, answering at the `n` addresses from `a` on: 0x00 where it answered nothing before. -/
def answering (a n : Nat) (m : Memory) : Memory :=
  (List.range' a n).foldl (fun m i => if (Memory.read m i).isSome then m else Memory.write m i 0x00#8) m

/-- The state whose sequencer word is `w`, with no step held and nothing scripted before the engine's step: PHASE and T are the word's, and
BLK and LEN give the word's LAST, as block 0 of an empty message (LAST = 1) or of a 56-byte message (LAST = 0). Where the
word selects LDW, the source answers the addresses that LDW reads. -/
def placeSeqWord (s : State) (w : SeqWord) : State :=
  { s with
    phase := seqPhase w
    t := seqT w
    blk := 0#56
    len := if seqLast w then 0#61 else 56#61
    held := []
    script := []
    source := if decodeSeq w = .ok .ldw then answering (4 * (seqT w).toNat) 4 s.source else s.source }

/-- The state in which the host's next act is to present `w`, in a phase in which it is accepted. -/
def placeCmdWord (s : State) (w : CmdWord) : State :=
  { s with
    phase := if ready s then s.phase else Phase.init
    script := .command w :: s.script }

end Sys2Proof.Machine
end

