-- ==== Sys2Proof/Machine/Step.lean ====
section
/-! DEFINITION. The step function and the placing of an instruction for it (spec/46_sequencer.md R186, R191). -/

namespace Sys2Proof.Machine

/-- One step: one micro-operation, one accepted command, one reset or one other act of the script (R186). -/
def step (s : State) : Host.Outcome State Fault Refusal := machineStep s

/-- `s` with the instruction of the bits `w` placed where `step` takes its next instruction from: a command word as the
host's next act, a sequencer word in the control registers that form it (notes/assumptions/12.md). -/
def State.withFetchWord (s : State) (nbits w : Nat) : State :=
  if nbits ≤ 16 then placeSeqWord s (BitVec.ofNat 11 w) else placeCmdWord s (BitVec.ofNat 64 w)

end Sys2Proof.Machine
end

