-- ==== Sys2Proof/Reference.lean ====
section
/-! DEFINITION. The function the block computes, written from the rules as functions on lists and numbers, without the
machine's state or steps (spec/00_scope.md R19; spec/41_padding.md R124, R126; spec/42_schedule.md R142, R144;
spec/43_compression.md R154; spec/44_finalizer.md R167). Claims compare the machine with it. -/

namespace Sys2Proof.Reference

open Sys2Proof.Machine

/-- The padded message of a byte sequence as R124 lays it out: the bytes, 0x80, ZPAD zeros, the bit length in eight bytes. -/
def padded (m : List Byte) : List Byte :=
  m ++ [0x80#8] ++ List.replicate (zpad m.length) 0x00#8
    ++ (List.range 8).map fun k => BitVec.ofNat 8 (8 * m.length / 256 ^ (7 - k))

/-- `PM(i)` of R126 as a function of the length and of the message bytes `m`. -/
def pm (len : Nat) (m : Nat → Byte) (i : Nat) : Byte :=
  if i < len then m i
  else if i = len then 0x80#8
  else if i < 64 * nblk len - 8 then 0x00#8
  else BitVec.ofNat 8 (8 * len / 256 ^ (64 * nblk len - 1 - i))

/-- Word t of a 64-byte block b of a padded message: its bytes 4t .. 4t + 3, big-endian (R142). -/
def blockWord (p : Nat → Byte) (b t : Nat) : Word :=
  be32 (p (64 * b + 4 * t)) (p (64 * b + 4 * t + 1)) (p (64 * b + 4 * t + 2)) (p (64 * b + 4 * t + 3))

/-- The recurrence R143 at the index after the last of the words so far. -/
def extend (ws : List Word) : List Word :=
  let j := ws.length
  ws ++ [sigma1 (ws.getD (j - 2) 0) + ws.getD (j - 7) 0 + sigma0 (ws.getD (j - 15) 0) + ws.getD (j - 16) 0]

/-- The first `16 + k` schedule words of block b (R142, R144); the whole schedule is `k = 48`. -/
def schedule (p : Nat → Byte) (b : Nat) : Nat → List Word
  | 0 => (List.range 16).map (blockWord p b)
  | k + 1 => extend (schedule p b k)

/-- The working variables after the first `j` rounds of a block whose hash state before is `h` and schedule is `ws` (R154). -/
def rounds (h : Vector Word 8) (ws : List Word) : Nat → Vector Word 8
  | 0 => h
  | j + 1 => compressRound (rounds h ws j) (kTable.toList.getD j 0) (ws.getD j 0)

/-- The block function: H_after[i] = H_before[i] +32 v64[i] (R154). -/
def compress (h : Vector Word 8) (ws : List Word) : Vector Word 8 := foldWords h (rounds h ws 64)

/-- The hash state before block b: IV for block 0, the hash state after block b − 1 otherwise (R154). -/
def hashState (p : Nat → Byte) : Nat → Vector Word 8
  | 0 => iv
  | b + 1 => compress (hashState p b) (schedule p b 48)

/-- The digest of the `len` bytes `m 0 .. m (len − 1)` (R19, R154, R165). -/
def hash (len : Nat) (m : Nat → Byte) : Vector Byte 32 := serialize (hashState (pm len m) (nblk len))

/-- The transfers that the evaluation of PM at the addresses a .. a + n − 1 makes: one for each address below the length, ascending
(R57, R67). -/
def reads (len : Nat) (m : Nat → Byte) (a n : Nat) : List PortRead :=
  ((List.range' a n).filter (· < len)).map fun i => ⟨BitVec.ofNat 61 i, m i⟩

/-- The primes p_0 .. p_63 of R114, in order. -/
def primes : List Nat :=
  [2, 3, 5, 7, 11, 13, 17, 19, 23, 29, 31, 37, 41, 43, 47, 53, 59, 61, 67, 71, 73, 79, 83, 89, 97, 101, 103, 107, 109, 113,
   127, 131, 137, 139, 149, 151, 157, 163, 167, 173, 179, 181, 191, 193, 197, 199, 211, 223, 227, 229, 233, 239, 241, 251,
   257, 263, 269, 271, 277, 281, 283, 293, 307, 311]

end Sys2Proof.Reference
end

