-- ==== Sys2Proof/Safety.lean ====
section
/-! DEFINITION. What counts as a safe run, in the terms claims use: the invariant of the machine (spec/10_state.md R24, R43;
spec/44_finalizer.md R166), what the host must not do (spec/45_host_commands.md R179; spec/60_exceptions.md R205), and a
source that has the message ready (spec/70_reset_and_hazards.md R240). -/

namespace Sys2Proof.Safety

open Sys2Proof.Machine

/-- The invariant: PHASE is one of the five codes and T is in its range (R43); BLK is a block of the message in the block
loop (R33, R43); H is IV until the first block's FOLD (R24); in FINALIZED, DIGEST is the bytes of H (R165, R166); only an LDW
whose next byte is a message byte is ever held (R56, R57); the source's list is canonical. -/
abbrev Invariant (s : State) : Prop :=
  Memory.wf s.source ∧
  s.phase.toNat ≤ 4 ∧
  (s.phase = Phase.init ∨ s.phase = Phase.paddingDone → s.h = iv) ∧
  (s.phase = Phase.scheduling →
    s.t.toNat ≤ 64 ∧ s.blk.toNat < nblk s.len.toNat ∧ (s.blk = 0#56 → s.h = iv)) ∧
  (s.phase = Phase.compressing → s.t.toNat ≤ 65 ∧ s.blk.toNat < nblk s.len.toNat) ∧
  (s.phase = Phase.finalized → s.digest = serialize s.h) ∧
  (s.held = [] ∨ (s.phase = Phase.scheduling ∧ s.t.toNat ≤ 15 ∧ s.held.length ≤ 3 ∧
    ldwAddress s + s.held.length < s.len.toNat))

/-- In a busy phase, the message bytes below this address have been read in the computation under way, and no others (R67). -/
def readBelow (s : State) : Nat :=
  if s.phase = Phase.paddingDone then 0
  else if s.phase = Phase.scheduling ∧ s.t.toNat ≤ 15 then ldwAddress s + s.held.length
  else 64 * s.blk.toNat + 64

/-- The host's next act keeps R179: it transfers no command that is discarded (R90), reads DIGEST only while DONE = 1, and
during a computation neither changes a byte of the message nor stops the source answering one (R241). A late answer is no
change of the message (R245), and a source may drop a byte that it has been asked for (R63): no byte is read twice. That the
source has the message at START (R240) is `SourceHolds`. The model runs the other acts as the hardware does; R205 advises
marking them so that no claim is proved through them, and a claim about such a host takes this as its premise
(notes/assumptions/7.md). -/
def hostKeepsRules (s : State) : Bool :=
  match s.script with
  | .command w :: _ =>
    !ready s || (match decodeCmd w with
      | .ok (.start n) => s.phase == Phase.init && decide (n < 2 ^ Config.msgLenBits)
      | .ok _ => true
      | .error _ => false)
  | .readDigest :: _ => done s
  | .supply a b :: _ =>
    ready s || decide (s.len.toNat ≤ a.toNat) || (Memory.read s.source a.toNat).all (· == b)
  | .withdraw a :: _ =>
    ready s || decide (s.len.toNat ≤ a.toNat) || decide (a.toNat < readBelow s) || (Memory.read s.source a.toNat).isNone
  | [] | .reset :: _ | .wait :: _ | .observe :: _ | .pass :: _ => true

/-- The source answers the bytes `m` at every address below LEN (R55, R240). -/
abbrev SourceHolds (s : State) (m : Nat → Byte) : Prop :=
  ∀ i, i < s.len.toNat → Memory.read s.source i = some (m i)

/-- The answer to the read of byte k of LDW's word: the byte the held step already has, else the source's (R56, R63). -/
def ldwAnswer (s : State) (k : Nat) : Option Byte :=
  (s.held[k]?).or (Memory.read s.source (ldwAddress s + k))

/-- Two states with the same block registers: they may differ in what is outside the block only. -/
abbrev SameBlock (s s' : State) : Prop :=
  s'.h = s.h ∧ s'.w = s.w ∧ s'.v = s.v ∧ s'.digest = s.digest ∧ s'.len = s.len ∧ s'.phase = s.phase ∧
  s'.blk = s.blk ∧ s'.t = s.t

/-- The instruction the next step executes: the command a transfer carries while READY = 1, or the engine's micro-operation
where nothing else is scripted before it (R170, R186, R191). -/
def running (s : State) : Option Instr :=
  match s.script with
  | [] | .wait :: _ | .pass :: _ => (selected s).toOption
  | .command w :: _ => if ready s then (decodeCmd w).toOption else (selected s).toOption
  | .reset :: _ | .observe :: _ | .readDigest :: _ | .supply _ _ :: _ | .withdraw _ :: _ => none

/-- The next step is a reset (R230). -/
abbrev Resetting (s : State) : Prop := s.script.head? = some .reset

end Sys2Proof.Safety
end

