-- ==== Sys2Proof/Certificates/Slice0/Obligations.lean ====
section
/-! DEFINITION. The statements for the provers, in the order of OBLIGATIONS.json. -/

open Sys2Proof Sys2Proof.Machine Sys2Proof.Safety

/-! ### Encodings -/

/-- Decoding the word of a well-formed instruction gives the instruction back, START with every length 0 .. 2^61 − 1; and a
START of 2^61 bytes or more has no word at all, so its length is never truncated (R202). -/
def Obligations.DecodeOfEncodeIsTheInstruction : Prop :=
  (∀ i : Instr, i.wf = true → ∃ w, encode i = some w ∧ decode w = .ok i) ∧
  (∀ i : Instr, i.wf = false → encode i = none)

/-- A command word has exactly one reading (R82, R83): OP 0b001 is INIT whatever ARG is, OP 0b010 is START with L = ARG as it
stands, every other OP is reserved; and putting OP and ARG together loses no bit (R81). -/
def Obligations.CommandWordDecodesByOpcode : Prop :=
  (∀ w : CmdWord, decodeCmd w =
    if cmdOp w = 0b001#3 then .ok .init
    else if cmdOp w = 0b010#3 then .ok (.start (cmdArg w).toNat)
    else .error .reservedOpcode) ∧
  (∀ w : CmdWord, mkCmdWord (cmdOp w) (cmdArg w) = w)

/-- Micro-operation selection by the columns of R87, for every LAST, PHASE and T; a word that matches no row is quiescent for
PHASE 0 and 4 and unreachable otherwise; no word matches two rows; and where no row matches, the engine has no step: it
changes nothing. -/
def Obligations.SequencerWordSelectsTheRowsOperation : Prop :=
  (∀ (l : Bool) (p : PhaseCode) (t : StepIdx), decodeSeq (mkSeqWord l p t) =
    if p = 1#3 then .ok .begin
    else if p = 2#3 ∧ t.toNat ≤ 15 then .ok .ldw
    else if p = 2#3 ∧ t.toNat ≤ 63 then .ok .exp
    else if p = 2#3 ∧ t.toNat = 64 then .ok .seed
    else if p = 3#3 ∧ t.toNat ≤ 63 then .ok .rnd
    else if p = 3#3 ∧ t.toNat = 64 then .ok .fold
    else if p = 3#3 ∧ t.toNat = 65 ∧ l = false then .ok .next
    else if p = 3#3 ∧ t.toNat = 65 ∧ l = true then .ok .ser
    else if p = 0#3 ∨ p = 4#3 then .error .quiescentPhase
    else .error .unreachableWord) ∧
  (∀ w : SeqWord, (seqTable.filter fun r => r.selects w).length ≤ 1) ∧
  (∀ (s t : State) (r : Reject), decodeSeq (mkSeqWord (last s) s.phase s.t) = .error r → engineStep s = .next t → t = s)

/-- Words written out from R82 and R87 (vectors T14, T15). -/
def Obligations.WrittenWordsDecode : Prop :=
  decodeCmd 0x3FFFFFFFFFFFFFFF#64 = .ok .init ∧
  decodeCmd 0x5FFFFFFFFFFFFFFF#64 = .ok (.start (2 ^ 61 - 1)) ∧
  decodeCmd 0x8000000000000003#64 = .error .reservedOpcode ∧
  decodeSeq 0b1_001_1011101#11 = .ok .begin ∧
  decodeSeq 0b0_010_0001111#11 = .ok .ldw ∧
  decodeSeq 0b1_010_0011111#11 = .ok .exp ∧
  decodeSeq 0b0_010_0111111#11 = .ok .exp ∧
  decodeSeq 0b1_011_0111111#11 = .ok .rnd ∧
  decodeSeq 0b0_011_1000001#11 = .ok .next ∧
  decodeSeq 0b1_011_1000001#11 = .ok .ser ∧
  decodeSeq 0b0_011_1000010#11 = .error .unreachableWord

/-! ### What a step runs -/

/-- In a busy phase the step is the selected micro-operation: with nothing scripted, with a command that is held, with a
WAIT, and as the one engine step of a `pass` (the script is the model's form of the partners' acts, log 5). -/
def Obligations.StepRunsTheSelectedMicroOperation : Prop :=
  ∀ (s : State) (i : Instr), selected s = .ok i →
    (s.script = [] → step s = exec i s) ∧
    (∀ w rest, s.script = .command w :: rest → step s = exec i s) ∧
    (∀ rest, s.script = .wait :: rest → step s = exec i s) ∧
    (∀ rest t, s.script = .pass :: rest → exec i { s with script := rest } = .next t → step s = .next t)

/-- While READY = 1 the step transfers the presented command: the instruction its word decodes to runs, with the word taken
off the script; a word that decodes to none is discarded, and nothing but the script changes (R90's hardware effect, run and
not refused: log 7). -/
def Obligations.StepTransfersThePresentedCommand : Prop :=
  ∀ (s : State) (w : CmdWord) (rest : List HostEvent), ready s = true → s.script = .command w :: rest →
    (∀ i, decodeCmd w = .ok i → step s = exec i { s with script := rest }) ∧
    (∀ r, decodeCmd w = .error r → step s = .next { s with script := rest })

/-- A command presented while READY = 0 is neither executed nor lost (R170): the engine's step leaves the script, the model's
form of what the host presents (log 5), as it is. -/
def Obligations.HeldCommandStaysPresented : Prop :=
  ∀ (s t : State) (w : CmdWord) (rest : List HostEvent), ready s = false → s.script = .command w :: rest →
    step s = .next t → t.script = .command w :: rest ∧ engineStep s = .next t

/-- A meaning is refused as `notEnabled` exactly when the hardware does not enable it: a micro-operation when the sequencer
word does not select it (R87), a command when READY = 0 (R170). The refusal is the model's choice (log 9). An LDW that is
selected can still stop for another reason (LdwIsStuckAtASilentAddress, LdwOutsideThePaddedMessageIsRefused). -/
def Obligations.NotEnabledIsRefusedExactlyWhenNotEnabled : Prop :=
  (∀ (i : Instr) (s : State), i ∈ [Instr.begin, .ldw, .exp, .seed, .rnd, .fold, .next, .ser] →
    (exec i s = .refused .notEnabled ↔ selected s ≠ .ok i)) ∧
  (∀ s : State, exec .init s = .refused .notEnabled ↔ ready s = false) ∧
  (∀ (n : Nat) (s : State), exec (.start n) s = .refused .notEnabled ↔ ready s = false)

/-! ### The commands -/

/-- INIT (R171): accepted with PHASE = INIT or FINALIZED, it loads IV into H and 0 into PHASE and changes nothing else; READY
= 1 and DONE = 0 afterwards. Its ARG is not decoded. -/
def Obligations.InitReloadsHashStateAndPhase : Prop :=
  (∀ s : State, s.phase = Phase.init ∨ s.phase = Phase.finalized →
    exec .init s = .next { s with h := iv, phase := Phase.init } ∧
    ready { s with h := iv, phase := Phase.init } = true ∧ done { s with h := iv, phase := Phase.init } = false) ∧
  (∀ arg : MsgLen, decodeCmd (mkCmdWord 0b001#3 arg) = .ok .init)

/-- START L (R172): in phase INIT, LEN <- L and PHASE <- PADDING_DONE and nothing else, READY becomes 0 and DONE stays 0; in
FINALIZED the command is discarded with no state change, which the model runs and does not refuse as R90 and U3 advise
(log 7). -/
def Obligations.StartLatchesLengthInPhaseInit : Prop :=
  ∀ (s : State) (l : MsgLen),
    decodeCmd (mkCmdWord 0b010#3 l) = .ok (.start l.toNat) ∧
    (s.phase = Phase.init →
      exec (.start l.toNat) s = .next { s with len := l, phase := Phase.paddingDone } ∧
      ready { s with len := l, phase := Phase.paddingDone } = false ∧
      done { s with len := l, phase := Phase.paddingDone } = false) ∧
    (s.phase = Phase.finalized → exec (.start l.toNat) s = .next s)

/-- A length that no command word can carry is discarded, never truncated (R84, R90; log 15). -/
def Obligations.StartOfInexpressibleLengthChangesNothing : Prop :=
  ∀ (s : State) (n : Nat), ready s = true → 2 ^ 61 ≤ n → (Instr.start n).wf = false ∧ exec (.start n) s = .next s

/-! ### The micro-operations -/

/-- BEGIN (R185): whatever T, BLK and LAST, (PHASE, BLK, T) <- (2, 0, 0) and nothing else; READY and DONE stay 0, and LAST
becomes 1 exactly when LEN ≤ 55. -/
def Obligations.BeginEntersTheBlockLoop : Prop :=
  ∀ s : State, s.phase = Phase.paddingDone →
    exec .begin s = .next { s with phase := Phase.scheduling, blk := 0#56, t := 0#7 } ∧
    ready { s with phase := Phase.scheduling, blk := 0#56, t := 0#7 } = false ∧
    done { s with phase := Phase.scheduling, blk := 0#56, t := 0#7 } = false ∧
    (last { s with phase := Phase.scheduling, blk := 0#56, t := 0#7 } = true ↔ s.len.toNat ≤ 55)

/-- LDW (R141): for a block of the message and a source that answers `m` at those of its four addresses below LEN, W[T] is the
big-endian word of PM(a) .. PM(a + 3), a = 64·BLK + 4·T; T <- T + 1; the port makes one read for each of the four addresses
below LEN, in ascending order; nothing else changes. The step begins here; HeldLdwReadsOnlyTheRest has the step that goes on
after it was held. -/
def Obligations.LdwLoadsOneScheduleWord : Prop :=
  ∀ (s : State) (m : Nat → Byte) (ht : s.t.toNat ≤ 15), s.held = [] →
    s.phase = Phase.scheduling → s.blk.toNat < nblk s.len.toNat →
    (∀ k, k < 4 → 64 * s.blk.toNat + 4 * s.t.toNat + k < s.len.toNat →
      Memory.read s.source (64 * s.blk.toNat + 4 * s.t.toNat + k) = some (m (64 * s.blk.toNat + 4 * s.t.toNat + k))) →
    exec .ldw s = .next { s with
      w := s.w.set s.t.toNat (Reference.blockWord (Reference.pm s.len.toNat m) s.blk.toNat s.t.toNat)
      t := BitVec.ofNat 7 (s.t.toNat + 1)
      transfers := s.transfers ++ Reference.reads s.len.toNat m (64 * s.blk.toNat + 4 * s.t.toNat) 4 }

/-- An LDW that was held goes on with the bytes it has and makes only the rest of its reads (R56, R63), whatever the source would
now answer at the addresses read already; its effect on W and T is LDW's. The field `held` is the model's (log 6). -/
def Obligations.HeldLdwReadsOnlyTheRest : Prop :=
  ∀ (s : State) (m : Nat → Byte) (ht : s.t.toNat ≤ 15), s.held ≠ [] →
    s.phase = Phase.scheduling → s.blk.toNat < nblk s.len.toNat →
    (∀ k, k < 4 → ldwAddress s + k < s.len.toNat → ldwAnswer s k = some (m (ldwAddress s + k))) →
    exec .ldw s = .next { s with
      w := s.w.set s.t.toNat (Reference.blockWord (Reference.pm s.len.toNat m) s.blk.toNat s.t.toNat)
      t := BitVec.ofNat 7 (s.t.toNat + 1)
      held := []
      transfers := s.transfers ++ Reference.reads s.len.toNat m (ldwAddress s + s.held.length) (4 - s.held.length) }

/-- A read the source never answers holds LDW for ever (R56, R203): the engine is stuck at the first of the four addresses,
below LEN, for which there is no answer. That an address the model's source does not list is never answered, and that stuck is
a fault of the model, are log 3. -/
def Obligations.LdwIsStuckAtASilentAddress : Prop :=
  ∀ (s : State) (k : Nat), s.phase = Phase.scheduling → s.t.toNat ≤ 15 → k < 4 →
    64 * s.blk.toNat + 4 * s.t.toNat + k < s.len.toNat →
    (∀ j, j < k → (ldwAnswer s j).isSome = true) → ldwAnswer s k = none →
    exec .ldw s = .fault (.sourceSilent (64 * s.blk.toNat + 4 * s.t.toNat + k))

/-- The reads of one LDW are not atomic as a group (R62): when the source holds the step up at byte k, the reads before it have
been made, each one transfer, their answers are kept for the step, and no register changes (R56, R231). No byte that is kept
is read again (R63). `pass` and the field `held` are the model's (logs 5 and 6). -/
def Obligations.HeldLdwKeepsTheReadsItHasMade : Prop :=
  ∀ (s : State) (m : Nat → Byte) (k : Nat) (rest : List HostEvent), s.script = .pass :: rest →
    s.phase = Phase.scheduling → s.t.toNat ≤ 15 → k < 4 → ldwAddress s + k < s.len.toNat →
    (∀ j, j < k → ldwAnswer s j = some (m (ldwAddress s + j))) → ldwAnswer s k = none →
    step s = .next { s with
      script := rest
      held := (List.range k).map fun j => m (ldwAddress s + j)
      transfers := s.transfers ++ Reference.reads s.len.toNat m (ldwAddress s + s.held.length) (k - s.held.length) }

/-- PM is undefined outside the padded message (R126): LDW for a block that is none of the message's is refused (U7; log 10). -/
def Obligations.LdwOutsideThePaddedMessageIsRefused : Prop :=
  ∀ s : State, s.phase = Phase.scheduling → s.t.toNat ≤ 15 → nblk s.len.toNat ≤ s.blk.toNat →
    exec .ldw s = .refused .outsidePaddedMessage

/-- EXP (R143): W[T] <- sigma1(W[T−2]) + W[T−7] + sigma0(W[T−15]) + W[T−16] modulo 2^32, T <- T + 1, nothing else. -/
def Obligations.ExpDerivesOneScheduleWord : Prop :=
  ∀ (s : State) (h : 16 ≤ s.t.toNat ∧ s.t.toNat ≤ 63), s.phase = Phase.scheduling →
    exec .exp s = .next { s with
      w := s.w.set s.t.toNat (sigma1 s.w[s.t.toNat - 2] + s.w[s.t.toNat - 7] + sigma0 s.w[s.t.toNat - 15] +
        s.w[s.t.toNat - 16])
      t := BitVec.ofNat 7 (s.t.toNat + 1) }

/-- SEED (R150): V <- H, T <- 0, PHASE <- COMPRESSING, nothing else; READY and DONE stay 0. -/
def Obligations.SeedCopiesTheHashState : Prop :=
  ∀ s : State, s.phase = Phase.scheduling → s.t = 64#7 →
    exec .seed s = .next { s with v := s.h, t := 0#7, phase := Phase.compressing } ∧
    ready { s with v := s.h, t := 0#7, phase := Phase.compressing } = false ∧
    done { s with v := s.h, t := 0#7, phase := Phase.compressing } = false

/-- RND (R151, R152): the eight simultaneous assignments with K[T] and W[T] in terms of the old a .. h; T <- T + 1; nothing
else. -/
def Obligations.RndRunsOneRound : Prop :=
  ∀ (s : State) (ht : s.t.toNat ≤ 63) (a b c d e f g h S1v chv temp1 S0v majv temp2 : Word),
    s.phase = Phase.compressing → s.v = #v[a, b, c, d, e, f, g, h] →
    S1v = bigS1 e → chv = ch e f g → temp1 = h + S1v + chv + kTable[s.t.toNat] + s.w[s.t.toNat] →
    S0v = bigS0 a → majv = maj a b c → temp2 = S0v + majv →
    exec .rnd s = .next { s with
      v := #v[temp1 + temp2, a, b, c, d + temp1, e, f, g]
      t := BitVec.ofNat 7 (s.t.toNat + 1) }

/-- FOLD (R153): H[i] <- H[i] + V[i] modulo 2^32 for each i, T <- 65, nothing else. -/
def Obligations.FoldAddsTheWorkingVariables : Prop :=
  ∀ s : State, s.phase = Phase.compressing → s.t = 64#7 →
    ∃ h' : Vector Word 8, (∀ i : Fin 8, h'[i] = BitVec.ofNat 32 (s.h[i].toNat + s.v[i].toNat)) ∧
      exec .fold s = .next { s with h := h', t := 65#7 }

/-- NEXT (R187): selected with BLK + 1 < NBLK(LEN), it adds 1 to BLK without overflow, sets T to 0 and PHASE to SCHEDULING, and
changes nothing else; READY and DONE stay 0. -/
def Obligations.NextGoesToTheFollowingBlock : Prop :=
  ∀ s : State, s.phase = Phase.compressing → s.t = 65#7 → s.blk.toNat + 1 < nblk s.len.toNat →
    last s = false ∧ (s.blk + 1#56).toNat = s.blk.toNat + 1 ∧
    exec .next s = .next { s with blk := s.blk + 1#56, t := 0#7, phase := Phase.scheduling } ∧
    ready { s with blk := s.blk + 1#56, t := 0#7, phase := Phase.scheduling } = false ∧
    done { s with blk := s.blk + 1#56, t := 0#7, phase := Phase.scheduling } = false

/-- NEXT with LAST = 0 in any state, also where BLK + 1 > NBLK(LEN), which no run reaches: it adds 1 to BLK in 56 bits, where
the sum may wrap (the model's reading, log 11), and its other effects are those of R187. -/
def Obligations.NextWithLastZeroAddsInFiftySixBits : Prop :=
  ∀ s : State, s.phase = Phase.compressing → s.t = 65#7 → last s = false →
    exec .next s = .next { s with
      blk := BitVec.ofNat 56 ((s.blk.toNat + 1) % 2 ^ 56), t := 0#7, phase := Phase.scheduling }

/-- SER (R165, R167): selected with LAST = 1, it writes the four bytes of each H[i], most significant first, to DIGEST[4i ..
4i + 3] and 4 to PHASE, and changes nothing else; READY and DONE become 1. -/
def Obligations.SerWritesTheDigest : Prop :=
  ∀ s : State, s.phase = Phase.compressing → s.t = 65#7 → s.blk.toNat + 1 = nblk s.len.toNat →
    ∃ d : Vector Byte 32,
      (∀ i : Fin 8,
        d[4 * i.val]'(by omega) = s.h[i].extractLsb' 24 8 ∧
        d[4 * i.val + 1]'(by omega) = s.h[i].extractLsb' 16 8 ∧
        d[4 * i.val + 2]'(by omega) = s.h[i].extractLsb' 8 8 ∧
        d[4 * i.val + 3]'(by omega) = s.h[i].extractLsb' 0 8) ∧
      exec .ser s = .next { s with digest := d, phase := Phase.finalized } ∧
      ready { s with digest := d, phase := Phase.finalized } = true ∧
      done { s with digest := d, phase := Phase.finalized } = true

/-! ### Word operations, padding, signals -/

/-- `+32` (R100) is addition modulo 2^32, and `rotr` (R103): result bit i equals bit (i + n) mod 32 of the operand, for every
amount 1 .. 31. -/
def Obligations.WordAdditionWrapsAndRotationIsCircular : Prop :=
  (∀ x y : Word, (x + y).toNat = (x.toNat + y.toNat) % 2 ^ 32) ∧
  (∀ (x : Word) (n : Nat) (hn : 1 ≤ n ∧ n ≤ 31) (i : Nat), i < 32 →
    (rotr x n hn).getLsbD i = x.getLsbD ((i + n) % 32))

/-- `shr` (R104) divides by 2^n, for every amount 1 .. 31, and the four functions of R106 to R109 bit by bit: each result bit is
the exclusive or of three bits of the operand, where a shifted-in bit is 0. -/
def Obligations.SigmaFunctionsBitByBit : Prop :=
  (∀ (x : Word) (n : Nat) (hn : 1 ≤ n ∧ n ≤ 31), (shr x n hn).toNat = x.toNat / 2 ^ n) ∧
  (∀ (x : Word) (i : Nat), i < 32 →
    (sigma0 x).getLsbD i =
      ((x.getLsbD ((i + 7) % 32) ^^ x.getLsbD ((i + 18) % 32)) ^^ (decide (i + 3 < 32) && x.getLsbD (i + 3))) ∧
    (sigma1 x).getLsbD i =
      ((x.getLsbD ((i + 17) % 32) ^^ x.getLsbD ((i + 19) % 32)) ^^ (decide (i + 10 < 32) && x.getLsbD (i + 10))) ∧
    (bigS0 x).getLsbD i =
      ((x.getLsbD ((i + 2) % 32) ^^ x.getLsbD ((i + 13) % 32)) ^^ x.getLsbD ((i + 22) % 32)) ∧
    (bigS1 x).getLsbD i =
      ((x.getLsbD ((i + 6) % 32) ^^ x.getLsbD ((i + 11) % 32)) ^^ x.getLsbD ((i + 25) % 32)))

/-- `ch` and `maj` bit by bit (R110, R111): each bit of x chooses the bit of y or of z; each result bit is 1 when at least two
of the three operand bits are. -/
def Obligations.ChoiceAndMajorityBitByBit : Prop :=
  ∀ (x y z : Word) (i : Nat), i < 32 →
    (ch x y z).getLsbD i = (if x.getLsbD i then y.getLsbD i else z.getLsbD i) ∧
    (maj x y z).getLsbD i =
      decide (2 ≤ (x.getLsbD i).toNat + (y.getLsbD i).toNat + (z.getLsbD i).toNat)

/-- The recipe of R114 regenerates both tables: IV[i] is isqrt(p_i·2^64) mod 2^32 and K[j] is icbrt(p_j·2^96) mod 2^32, with
p_0 .. p_63 the primes up to 311 in order. The values are general knowledge in the spec's own words (log 13). -/
def Obligations.TablesAreTheRootsOfPrimes : Prop :=
  (∀ n : Nat, n ∈ Reference.primes ↔ n.Prime ∧ n ≤ 311) ∧ Reference.primes.Pairwise (· < ·) ∧
  (∀ i : Fin 8, ∃ r p : Nat, Reference.primes[i.val]? = some p ∧
    r ^ 2 ≤ p * 2 ^ 64 ∧ p * 2 ^ 64 < (r + 1) ^ 2 ∧ iv[i] = BitVec.ofNat 32 r) ∧
  (∀ j : Fin 64, ∃ r p : Nat, Reference.primes[j.val]? = some p ∧
    r ^ 3 ≤ p * 2 ^ 96 ∧ p * 2 ^ 96 < (r + 1) ^ 3 ∧ kTable[j] = BitVec.ofNat 32 r)

/-- NBLK(L) is the least N with 64·N ≥ L + 9 (R121), ZPAD(L) lies in 0..63 and equals (55 − L) mod 64 (R122), and 1 ≤ NBLK(L)
≤ 2^55 + 1 for every length the block can hold (R123). -/
def Obligations.BlockCountIsLeastAndInRange : Prop :=
  ∀ l : Nat, l < 2 ^ 61 →
    l + 9 ≤ 64 * nblk l ∧ (∀ n, l + 9 ≤ 64 * n → nblk l ≤ n) ∧
    l + 1 + zpad l + 8 = 64 * nblk l ∧ zpad l ≤ 63 ∧ (zpad l : Int) = (55 - (l : Int)) % 64 ∧
    1 ≤ nblk l ∧ nblk l ≤ 2 ^ 55 + 1

/-- The padding controller answers PM(i) as R126 says, case by case: a message byte through the port, with one recorded
transfer; 0x80; 0x00; or byte i − (64·N − 8) of the length field, the eight
bytes of 8·LEN, most significant first (R125). -/
def Obligations.PaddingControllerAnswersPm : Prop :=
  ∀ (s : State) (i : Nat),
    (i < s.len.toNat → ∀ b, Memory.read s.source i = some b →
      ∃ h, pmByte s i = .next (b, { s with transfers := s.transfers ++ [⟨BitVec.ofNat 61 i, b⟩], held := h })) ∧
    (i = s.len.toNat → pmByte s i = .next (0x80#8, s)) ∧
    (s.len.toNat < i → i < 64 * nblk s.len.toNat - 8 → pmByte s i = .next (0x00#8, s)) ∧
    (64 * nblk s.len.toNat - 8 ≤ i → i < 64 * nblk s.len.toNat →
      pmByte s i = .next (BitVec.ofNat 8 (8 * s.len.toNat / 256 ^ (64 * nblk s.len.toNat - 1 - i)), s))

/-- The padded message as R124 lays it out, the bytes of the message, 0x80, ZPAD(L) zeros and the bit length in eight bytes,
has 64·N bytes; and the padding controller answers its byte i at PM address i, whatever the message. -/
def Obligations.PaddingControllerFollowsTheLayout : Prop :=
  ∀ (s : State) (m : List Byte), m.length = s.len.toNat → SourceHolds s (fun k => m.getD k 0) →
    (Reference.padded m).length = 64 * nblk m.length ∧
    ∀ i, i < 64 * nblk m.length →
      ∃ (b : Byte) (s' : State), pmByte s i = .next (b, s') ∧ SameBlock s s' ∧ (Reference.padded m)[i]? = some b

/-- READY, DONE and LAST are the functions of the control registers that R36 gives. -/
def Obligations.StatusSignalsAreFunctionsOfControlRegisters : Prop :=
  ∀ s : State,
    (ready s = true ↔ s.phase = 0#3 ∨ s.phase = 4#3) ∧
    (done s = true ↔ s.phase = 4#3) ∧
    (last s = true ↔ s.blk.toNat + 1 = nblk s.len.toNat)

/-- The DIGEST port carries DIGEST[k] in bits [255 − 8k : 248 − 8k] (R176), and the port of the serialized hash state is
H[0] ++ .. ++ H[7] (R167). -/
def Obligations.DigestPortIsTheConcatenatedHashState : Prop :=
  (∀ (d : Vector Byte 32) (k : Fin 32), (digestPort d).extractLsb' (248 - 8 * k.val) 8 = d[k]) ∧
  (∀ (h : Vector Word 8) (i : Fin 8), (digestPort (serialize h)).extractLsb' (224 - 32 * i.val) 32 = h[i])

/-- Observing (R174, R175, R176): the host sees PHASE, READY and DONE together, and, when it reads DIGEST while DONE = 1, the
DIGEST register; no register, held step, message byte or transfer changes. What it reads on DIGEST while DONE = 0 is a free
value (log 8). -/
def Obligations.ObservationShowsOutputsAndChangesNoRegister : Prop :=
  ∀ (s : State) (rest : List HostEvent),
    (s.script = .observe :: rest →
      step s = .next { s with script := rest, seen := s.seen ++ [.status s.phase (ready s) (done s)] }) ∧
    (s.script = .readDigest :: rest →
      ∃ (t : State) (d : BitVec 256), step s = .next t ∧ SameBlock s t ∧ t.held = s.held ∧ t.source = s.source ∧
        t.transfers = s.transfers ∧ t.script = rest ∧ t.seen = s.seen ++ [.digest d] ∧
        (done s = true → d = digestPort s.digest))

/-! ### Reset, quiescence, stuck states -/

/-- A reset may occur in any state, whatever is enabled, and gives PHASE = INIT, H = IV, READY = 1 and DONE = 0 (R230, R231,
R208); the message reads already made are not undone (R232). Nothing is said of
LEN, BLK, T, W, V and DIGEST: they are free values (log 2). -/
def Obligations.ResetEstablishesInitFromAnyState : Prop :=
  ∀ (s : State) (rest : List HostEvent), s.script = .reset :: rest →
    ∃ t : State, step s = .next t ∧ t.phase = Phase.init ∧ t.h = iv ∧ ready t = true ∧ done t = false ∧
      t.source = s.source ∧ t.transfers = s.transfers ∧ t.script = rest

/-- The values R41 gives the state after reset. -/
def Obligations.ResetStateHasTheStatedValues : Prop :=
  State.reset.phase = 0#3 ∧ State.reset.h = iv ∧ ready State.reset = true ∧ done State.reset = false

/-- In a quiescent phase the engine has no step (R89): with nothing scripted no state changes (an idle step of the model,
log 5). -/
def Obligations.QuiescentPhaseIdles : Prop :=
  ∀ s : State, s.phase = Phase.init ∨ s.phase = Phase.finalized →
    selected s = .error .quiescentPhase ∧ (s.script = [] → step s = .next s)

/-- An unreachable sequencer word leaves the block stuck (R91): no micro-operation is selected, a presented command is not
accepted, and a reset releases it; stuck is the model's fault `stuckSequencer` (log 20).
No state of the invariant, so none on an execution from reset, forms such a word. -/
def Obligations.UnreachableSequencerWordIsStuck : Prop :=
  ∀ s : State,
    5 ≤ s.phase.toNat ∨ (s.phase = Phase.scheduling ∧ 65 ≤ s.t.toNat) ∨ (s.phase = Phase.compressing ∧ 66 ≤ s.t.toNat) →
    selected s = .error .unreachableWord ∧ ready s = false ∧ ¬Invariant s ∧
    (s.script = [] → step s = .fault .stuckSequencer) ∧
    (∀ w rest, s.script = .command w :: rest → step s = .fault .stuckSequencer) ∧
    (∀ rest, s.script = .reset :: rest → ∃ t, step s = .next t ∧ t.phase = Phase.init)

/-- A reset that comes while a step is held abandons it (R231, R232): first the held step makes the reads it can (a fault of the
engine that lasts, while `pass` lets the partners go on: logs 5 and 6) and performs none of its writes; then the reset gives
PHASE = INIT and H = IV, no step is held any more, and the message reads already made are not undone. -/
def Obligations.ResetAbandonsAHeldStep : Prop :=
  ∀ (s : State) (rest : List HostEvent) (f : Fault), s.script = .pass :: .reset :: rest → engineStep s = .fault f →
    ∃ u t : State, step s = .next u ∧ SameBlock s u ∧ u.script = .reset :: rest ∧ u.source = s.source ∧
      s.transfers <+: u.transfers ∧ engineStep u = .fault f ∧
      step u = .next t ∧ t.phase = Phase.init ∧ t.h = iv ∧ t.held = [] ∧ t.script = rest ∧ t.source = s.source ∧
      t.transfers = u.transfers

/-- The source's owner may change what the source answers at any moment (R241; as events of the model's script, log 4): the
new answer is read back, no other address's answer changes, and no register does. -/
def Obligations.SupplyChangesOneAnswerOnly : Prop :=
  ∀ (s : State) (a : MsgLen) (b : Byte) (rest : List HostEvent),
    (s.script = .supply a b :: rest →
      ∃ t, step s = .next t ∧ SameBlock s t ∧ t.held = s.held ∧ t.transfers = s.transfers ∧ t.script = rest ∧
        Memory.read t.source a.toNat = some b ∧
        ∀ i, i ≠ a.toNat → Memory.read t.source i = Memory.read s.source i) ∧
    (s.script = .withdraw a :: rest →
      ∃ t, step s = .next t ∧ SameBlock s t ∧ t.held = s.held ∧ t.transfers = s.transfers ∧ t.script = rest ∧
        Memory.read t.source a.toNat = none ∧
        ∀ i, i ≠ a.toNat → Memory.read t.source i = Memory.read s.source i)

/-- What the host does before START (R177, R201, R202): where the length is 2^61 or more, or the source cannot answer a byte, it
stops with the error of that name and issues nothing; otherwise its script is INIT, START with the whole length, WAIT, and
reading DIGEST. -/
def Obligations.HostStopsOnInputsTheBlockCannotHash : Prop :=
  ∀ (source : Memory) (n : Nat),
    (2 ^ 61 ≤ n → hashScript source n = .error .inputTooLarge) ∧
    (∀ i, n < 2 ^ 61 → i < n → Memory.read source i = none → hashScript source n = .error .inputUnavailable) ∧
    (n < 2 ^ 61 → (∀ i, i < n → (Memory.read source i).isSome = true) →
      ∃ w w' : CmdWord, decodeCmd w = .ok .init ∧ decodeCmd w' = .ok (.start n) ∧
        hashScript source n = .ok [.command w, .command w', .wait, .readDigest])

/-- A host that keeps the rules (R179, R241) changes no answer the engine has still to ask for: in a busy phase, a step of such a
host leaves every message byte that the source answers and that has not been read as it is. -/
def Obligations.RuleKeepingHostLeavesTheUnreadMessageAlone : Prop :=
  ∀ s t : State, hostKeepsRules s = true → ready s = false → step s = .next t →
    ∀ (i : Nat) (b : Byte), readBelow s ≤ i → i < s.len.toNat → Memory.read s.source i = some b →
      Memory.read t.source i = some b

/-! ### The whole machine -/

/-- The state after reset meets the invariant. -/
def Obligations.ResetMeetsTheInvariant : Prop := Invariant State.reset

/-- Every step keeps the invariant, from every state that meets it and for every script and source (R24, R33, R43, R166). -/
def Obligations.EveryStepKeepsTheInvariant : Prop :=
  ∀ s t : State, Invariant s → step s = .next t → Invariant t

/-- There is no error state (R200): from a state that meets the invariant a step answers a next state, or the engine waits for
a message byte below LEN that the source does not answer. -/
def Obligations.TheOnlyStopIsASilentSource : Prop :=
  ∀ s : State, Invariant s →
    (∃ t, step s = .next t) ∨
    (∃ a, step s = .fault (.sourceSilent a) ∧ a < s.len.toNat ∧ Memory.read s.source a = none)

/-- No transition may be skipped or reordered (R194): a step that changes PHASE follows an edge of DOC0's state machine, and
the instruction it runs is the edge's own; only a reset or an INIT leads to INIT. -/
def Obligations.PhaseChangesFollowTheStateMachine : Prop :=
  ∀ s t : State, step s = .next t → t.phase ≠ s.phase →
    (s.phase = Phase.init ∧ t.phase = Phase.paddingDone ∧ ∃ n, running s = some (.start n)) ∨
    (s.phase = Phase.paddingDone ∧ t.phase = Phase.scheduling ∧ running s = some .begin) ∨
    (s.phase = Phase.scheduling ∧ t.phase = Phase.compressing ∧ running s = some .seed) ∨
    (s.phase = Phase.compressing ∧ t.phase = Phase.scheduling ∧ running s = some .next) ∨
    (s.phase = Phase.compressing ∧ t.phase = Phase.finalized ∧ running s = some .ser) ∨
    (s.phase = Phase.finalized ∧ t.phase = Phase.init ∧ running s = some .init) ∨
    (Resetting s ∧ t.phase = Phase.init)

/-- Who writes what (R22, R27, R29, R30, R31, R32, R33, R34, R57, R186): apart from a reset, a step changes a register only if the
instruction it runs is one of the register's writers; the message is never written by the block, and only LDW reads it. -/
def Obligations.RegistersChangeOnlyByTheirWriters : Prop :=
  ∀ s t : State, step s = .next t → ¬Resetting s →
    (t.h ≠ s.h → running s = some .init ∨ running s = some .fold) ∧
    (t.w ≠ s.w → running s = some .ldw ∨ running s = some .exp) ∧
    (t.v ≠ s.v → running s = some .seed ∨ running s = some .rnd) ∧
    (t.digest ≠ s.digest → running s = some .ser) ∧
    (t.len ≠ s.len → ∃ n, running s = some (.start n)) ∧
    (t.phase ≠ s.phase → running s = some .init ∨ (∃ n, running s = some (.start n)) ∨ running s = some .begin ∨
      running s = some .seed ∨ running s = some .next ∨ running s = some .ser) ∧
    (t.blk ≠ s.blk → running s = some .begin ∨ running s = some .next) ∧
    (t.t ≠ s.t → running s = some .begin ∨ running s = some .ldw ∨ running s = some .exp ∨ running s = some .seed ∨
      running s = some .rnd ∨ running s = some .fold ∨ running s = some .next) ∧
    (t.transfers ≠ s.transfers ∨ t.held ≠ s.held → running s = some .ldw) ∧
    (running s ≠ none → t.source = s.source)

/-- The digest is immutable once produced (R30, R166): in FINALIZED every step but INIT and reset leaves all registers as
they are, and INIT rewrites H and PHASE only. -/
def Obligations.FinalizedStateIsRetained : Prop :=
  ∀ s t : State, s.phase = Phase.finalized → step s = .next t → ¬Resetting s →
    (running s ≠ some .init → SameBlock s t) ∧
    (running s = some .init → SameBlock { s with h := iv, phase := Phase.init } t)

/-- The order of micro-operations is determined by LEN (R190): with the message at the source and no step held, after
BEGIN and 131·b + j more steps, j < 131, the sequencer is at T = j of SCHEDULING for j ≤ 64 and at T = j − 65 of COMPRESSING for j ≥ 65, in
block b, for every block b of the message. -/
def Obligations.SequencerTrajectoryIsFixedByTheLength : Prop :=
  ∀ (s : State) (m : Nat → Byte) (b j : Nat), s.phase = Phase.paddingDone → s.script = [] → s.held = [] →
    SourceHolds s m → b < nblk s.len.toNat → j < 131 →
    ∃ t : State, Host.Core.run Sys2Proof.core (1 + 131 * b + j) s = .next t ∧
      t.blk.toNat = b ∧ t.len = s.len ∧ t.source = s.source ∧
      (j ≤ 64 → t.phase = Phase.scheduling ∧ t.t.toNat = j) ∧
      (65 ≤ j → t.phase = Phase.compressing ∧ t.t.toNat = j - 65)

/-- Sixteen LDW and forty-eight EXP steps give the block's schedule (R142, R144), whatever W held before, and read each message
byte of the block once, ascending (R67), also where the first LDW was held and has some of its bytes already (R63); H, V and
DIGEST are untouched (R145). -/
def Obligations.SchedulingStepsComputeTheSchedule : Prop :=
  ∀ (s : State) (m : Nat → Byte), s.phase = Phase.scheduling → s.t = 0#7 → s.script = [] → SourceHolds s m →
    s.held.length ≤ 3 → (∀ j b, s.held[j]? = some b → b = m (64 * s.blk.toNat + j)) →
    s.blk.toNat < nblk s.len.toNat →
    ∃ w : Vector Word 64,
      w.toList = Reference.schedule (Reference.pm s.len.toNat m) s.blk.toNat 48 ∧
      Host.Core.run Sys2Proof.core 64 s = .next { s with
        w := w
        t := 64#7
        held := []
        transfers := s.transfers ++
          Reference.reads s.len.toNat m (64 * s.blk.toNat + s.held.length) (64 - s.held.length) }

/-- SEED, sixty-four RND and FOLD compute the block function (R154): H_after[i] = H_before[i] +32 v64[i]. -/
def Obligations.CompressingStepsComputeTheBlockFunction : Prop :=
  ∀ s : State, s.phase = Phase.scheduling → s.t = 64#7 → s.script = [] →
    Host.Core.run Sys2Proof.core 66 s = .next { s with
      h := Reference.compress s.h s.w.toList
      v := Reference.rounds s.h s.w.toList 64
      phase := Phase.compressing
      t := 65#7 }

/-- Termination and result (R19, R193): from PADDING_DONE with H = IV, no step held and the message held by the source, exactly
1 + 131·NBLK(LEN) steps reach FINALIZED, and no fewer do; DIGEST is the hash of the message, and the port has read each message
byte once, in ascending order (R67), whatever W, V, BLK, T and DIGEST held before (R42). -/
def Obligations.ComputationEndsWithTheHash : Prop :=
  ∀ (s : State) (m : Nat → Byte), s.phase = Phase.paddingDone → s.h = iv → s.script = [] → s.held = [] →
    SourceHolds s m →
    (∃ t : State, Host.Core.run Sys2Proof.core (1 + 131 * nblk s.len.toNat) s = .next t ∧
      t.phase = Phase.finalized ∧ t.digest = Reference.hash s.len.toNat m ∧
      t.transfers = s.transfers ++ Reference.reads s.len.toNat m 0 s.len.toNat) ∧
    (∀ (k : Nat) (u : State), k ≤ 131 * nblk s.len.toNat → Host.Core.run Sys2Proof.core k s = .next u →
      u.phase ≠ Phase.finalized)

/-- The contract `hash(bytes) -> digest` carried out by the script `HASH n` (R95, R177, R178): in any state that accepts a
command and holds no step, where the host starts for a message of n bytes, INIT, START n, WAIT and reading DIGEST show the host
one thing: the hash of the source's n bytes. The result depends on nothing else in the state. -/
def Obligations.HashScriptShowsTheHashOfTheMessage : Prop :=
  ∀ (s : State) (n : Nat) (m : Nat → Byte), ready s = true → s.held = [] → hashScript s.source n = .ok s.script →
    (∀ i, i < n → Memory.read s.source i = some (m i)) →
    ∃ t : State, Host.Core.run Sys2Proof.core (131 * nblk n + 5) s = .next t ∧ t.script = [] ∧
      t.phase = Phase.finalized ∧ t.seen = s.seen ++ [.digest (digestPort (Reference.hash n m))] ∧
      t.transfers = s.transfers ++ Reference.reads n m 0 n

/-- Control does not depend on data (R195, R252): two states that agree on PHASE, BLK, T, LEN, the script and the number of bytes
a held step has, and whose sources answer at the same addresses, with any bytes and any H, W, V and DIGEST, agree on PHASE, BLK, T
and LEN after a step, have
read the same addresses, and stop or go on alike; a reset apart, whose unspecified registers are free values. -/
def Obligations.ControlDoesNotDependOnMessageBytes : Prop :=
  ∀ s s' : State, s'.phase = s.phase → s'.blk = s.blk → s'.t = s.t → s'.len = s.len → s'.script = s.script →
    s'.held.length = s.held.length → (∀ i, (Memory.read s'.source i).isSome = (Memory.read s.source i).isSome) →
    s'.transfers.map (·.maddr) = s.transfers.map (·.maddr) → ¬Resetting s →
    (∀ f, step s = .fault f ↔ step s' = .fault f) ∧
    (∀ r, step s = .refused r ↔ step s' = .refused r) ∧
    (∀ t t', step s = .next t → step s' = .next t' →
      t'.phase = t.phase ∧ t'.blk = t.blk ∧ t'.t = t.t ∧ t'.len = t.len ∧ t'.script = t.script ∧
      t'.held.length = t.held.length ∧
      (∀ i, (Memory.read t'.source i).isSome = (Memory.read t.source i).isSome) ∧
      t'.transfers.map (·.maddr) = t.transfers.map (·.maddr))
end

