-- ==== Sys2Proof/Laws/Decode.lean ====
section
/-! SUPPORT. The fields of a word put together from its fields, for both formats (R81, R86). -/

namespace Sys2Proof

theorem getLsbD_mkCmdWord (op : BitVec 3) (arg : MsgLen) (i : Nat) :
    (mkCmdWord op arg).getLsbD i = if i < 61 then arg.getLsbD i else op.getLsbD (i - 61) :=
  BitVec.getLsbD_append (x := op) (y := arg) (i := i)

theorem getLsbD_mkSeqWord (l : Bool) (p : PhaseCode) (t : StepIdx) (i : Nat) :
    (mkSeqWord l p t).getLsbD i =
      if i < 7 then t.getLsbD i else if i < 10 then p.getLsbD (i - 7) else (BitVec.ofBool l).getLsbD (i - 10) := by
  refine (BitVec.getLsbD_append (x := BitVec.ofBool l ++ p) (y := t) (i := i)).trans ?_
  rw [BitVec.getLsbD_append]
  by_cases h7 : i < 7
  · simp only [h7, if_true]
  · by_cases h10 : i < 10
    · simp only [h7, h10, show i - 7 < 3 by omega, if_true, if_false]
    · simp only [h7, h10, show ¬i - 7 < 3 by omega, show i - 7 - 3 = i - 10 by omega, if_false]

@[simp] theorem cmdOp_mkCmdWord (op : BitVec 3) (arg : MsgLen) : cmdOp (mkCmdWord op arg) = op := by
  apply BitVec.eq_of_getLsbD_eq
  intro i hi
  simp [cmdOp, getLsbD_mkCmdWord, hi]

@[simp] theorem cmdArg_mkCmdWord (op : BitVec 3) (arg : MsgLen) : cmdArg (mkCmdWord op arg) = arg := by
  apply BitVec.eq_of_getLsbD_eq
  intro i hi
  simp [cmdArg, getLsbD_mkCmdWord, hi]

@[simp] theorem seqPhase_mkSeqWord (l : Bool) (p : PhaseCode) (t : StepIdx) : seqPhase (mkSeqWord l p t) = p := by
  apply BitVec.eq_of_getLsbD_eq
  intro i hi
  simp [seqPhase, getLsbD_mkSeqWord, hi, show 7 + i < 10 by omega]

@[simp] theorem seqT_mkSeqWord (l : Bool) (p : PhaseCode) (t : StepIdx) : seqT (mkSeqWord l p t) = t := by
  apply BitVec.eq_of_getLsbD_eq
  intro i hi
  simp [seqT, getLsbD_mkSeqWord, hi]

@[simp] theorem seqLast_mkSeqWord (l : Bool) (p : PhaseCode) (t : StepIdx) : seqLast (mkSeqWord l p t) = l := by
  rw [seqLast, getLsbD_mkSeqWord]
  cases l <;> rfl

end Sys2Proof
end

