-- ==== Sys2Proof/Laws/State.lean ====
section
/-! SUPPORT. One lemma per field for each named update of State, so that no proof unfolds a record update. -/

namespace Sys2Proof.Machine

/-! ### setSequencer -/

@[simp] theorem setSequencer_h (s : State) (p : PhaseCode) (b : BlkIdx) (n : StepIdx) : (setSequencer s p b n).h = s.h := rfl
@[simp] theorem setSequencer_w (s : State) (p : PhaseCode) (b : BlkIdx) (n : StepIdx) : (setSequencer s p b n).w = s.w := rfl
@[simp] theorem setSequencer_v (s : State) (p : PhaseCode) (b : BlkIdx) (n : StepIdx) : (setSequencer s p b n).v = s.v := rfl
@[simp] theorem setSequencer_digest (s : State) (p : PhaseCode) (b : BlkIdx) (n : StepIdx) : (setSequencer s p b n).digest = s.digest := rfl
@[simp] theorem setSequencer_len (s : State) (p : PhaseCode) (b : BlkIdx) (n : StepIdx) : (setSequencer s p b n).len = s.len := rfl
@[simp] theorem setSequencer_phase (s : State) (p : PhaseCode) (b : BlkIdx) (n : StepIdx) : (setSequencer s p b n).phase = p := rfl
@[simp] theorem setSequencer_blk (s : State) (p : PhaseCode) (b : BlkIdx) (n : StepIdx) : (setSequencer s p b n).blk = b := rfl
@[simp] theorem setSequencer_t (s : State) (p : PhaseCode) (b : BlkIdx) (n : StepIdx) : (setSequencer s p b n).t = n := rfl
@[simp] theorem setSequencer_held (s : State) (p : PhaseCode) (b : BlkIdx) (n : StepIdx) : (setSequencer s p b n).held = s.held := rfl
@[simp] theorem setSequencer_source (s : State) (p : PhaseCode) (b : BlkIdx) (n : StepIdx) : (setSequencer s p b n).source = s.source := rfl
@[simp] theorem setSequencer_script (s : State) (p : PhaseCode) (b : BlkIdx) (n : StepIdx) : (setSequencer s p b n).script = s.script := rfl
@[simp] theorem setSequencer_transfers (s : State) (p : PhaseCode) (b : BlkIdx) (n : StepIdx) : (setSequencer s p b n).transfers = s.transfers := rfl
@[simp] theorem setSequencer_seen (s : State) (p : PhaseCode) (b : BlkIdx) (n : StepIdx) : (setSequencer s p b n).seen = s.seen := rfl
@[simp] theorem setSequencer_draws (s : State) (p : PhaseCode) (b : BlkIdx) (n : StepIdx) : (setSequencer s p b n).draws = s.draws := rfl

/-! ### advance -/

@[simp] theorem advance_h (s : State) : (advance s).h = s.h := rfl
@[simp] theorem advance_w (s : State) : (advance s).w = s.w := rfl
@[simp] theorem advance_v (s : State) : (advance s).v = s.v := rfl
@[simp] theorem advance_digest (s : State) : (advance s).digest = s.digest := rfl
@[simp] theorem advance_len (s : State) : (advance s).len = s.len := rfl
@[simp] theorem advance_phase (s : State) : (advance s).phase = s.phase := rfl
@[simp] theorem advance_blk (s : State) : (advance s).blk = s.blk := rfl
@[simp] theorem advance_t (s : State) : (advance s).t = s.t + 1#7 := rfl
@[simp] theorem advance_held (s : State) : (advance s).held = s.held := rfl
@[simp] theorem advance_source (s : State) : (advance s).source = s.source := rfl
@[simp] theorem advance_script (s : State) : (advance s).script = s.script := rfl
@[simp] theorem advance_transfers (s : State) : (advance s).transfers = s.transfers := rfl
@[simp] theorem advance_seen (s : State) : (advance s).seen = s.seen := rfl
@[simp] theorem advance_draws (s : State) : (advance s).draws = s.draws := rfl

/-! ### observe -/

@[simp] theorem observe_h (s : State) : (observe s).h = s.h := rfl
@[simp] theorem observe_w (s : State) : (observe s).w = s.w := rfl
@[simp] theorem observe_v (s : State) : (observe s).v = s.v := rfl
@[simp] theorem observe_digest (s : State) : (observe s).digest = s.digest := rfl
@[simp] theorem observe_len (s : State) : (observe s).len = s.len := rfl
@[simp] theorem observe_phase (s : State) : (observe s).phase = s.phase := rfl
@[simp] theorem observe_blk (s : State) : (observe s).blk = s.blk := rfl
@[simp] theorem observe_t (s : State) : (observe s).t = s.t := rfl
@[simp] theorem observe_held (s : State) : (observe s).held = s.held := rfl
@[simp] theorem observe_source (s : State) : (observe s).source = s.source := rfl
@[simp] theorem observe_script (s : State) : (observe s).script = s.script := rfl
@[simp] theorem observe_transfers (s : State) : (observe s).transfers = s.transfers := rfl
@[simp] theorem observe_draws (s : State) : (observe s).draws = s.draws := rfl
@[simp] theorem observe_seen (s : State) :
    (observe s).seen = s.seen ++ [.status s.phase (ready s) (done s)] := rfl

/-! ### readDigest -/

@[simp] theorem readDigest_h (s : State) : (readDigest s).h = s.h := rfl
@[simp] theorem readDigest_w (s : State) : (readDigest s).w = s.w := rfl
@[simp] theorem readDigest_v (s : State) : (readDigest s).v = s.v := rfl
@[simp] theorem readDigest_digest (s : State) : (readDigest s).digest = s.digest := rfl
@[simp] theorem readDigest_len (s : State) : (readDigest s).len = s.len := rfl
@[simp] theorem readDigest_phase (s : State) : (readDigest s).phase = s.phase := rfl
@[simp] theorem readDigest_blk (s : State) : (readDigest s).blk = s.blk := rfl
@[simp] theorem readDigest_t (s : State) : (readDigest s).t = s.t := rfl
@[simp] theorem readDigest_held (s : State) : (readDigest s).held = s.held := rfl
@[simp] theorem readDigest_source (s : State) : (readDigest s).source = s.source := rfl
@[simp] theorem readDigest_script (s : State) : (readDigest s).script = s.script := rfl
@[simp] theorem readDigest_transfers (s : State) : (readDigest s).transfers = s.transfers := rfl
@[simp] theorem readDigest_seen (s : State) : (readDigest s).seen = s.seen ++ [.digest (digestOutput s)] := rfl
@[simp] theorem readDigest_draws (s : State) : (readDigest s).draws = s.draws + 1 := rfl

/-! ### resetBlock: the fields R230 gives a value, and those outside the block -/

@[simp] theorem resetBlock_h (s : State) : (resetBlock s).h = iv := rfl
@[simp] theorem resetBlock_phase (s : State) : (resetBlock s).phase = Phase.init := rfl
@[simp] theorem resetBlock_held (s : State) : (resetBlock s).held = [] := rfl
@[simp] theorem resetBlock_source (s : State) : (resetBlock s).source = s.source := rfl
@[simp] theorem resetBlock_script (s : State) : (resetBlock s).script = s.script := rfl
@[simp] theorem resetBlock_transfers (s : State) : (resetBlock s).transfers = s.transfers := rfl
@[simp] theorem resetBlock_seen (s : State) : (resetBlock s).seen = s.seen := rfl
@[simp] theorem resetBlock_draws (s : State) : (resetBlock s).draws = s.draws + resetDraws := rfl

/-! ### The signals after an update of the phase -/

theorem ready_eq (s : State) : ready s = true ↔ s.phase = Phase.init ∨ s.phase = Phase.finalized := by
  simp [ready]

theorem done_eq (s : State) : done s = true ↔ s.phase = Phase.finalized := by
  simp [done]

theorem last_eq (s : State) : last s = true ↔ s.blk.toNat + 1 = nblk s.len.toNat := by
  simp [last]

theorem ready_of_done {s : State} (h : done s = true) : ready s = true := by
  rw [ready_eq]; exact .inr ((done_eq s).mp h)

end Sys2Proof.Machine
end

