-- ==== Sys2Proof/Laws/Ops.lean ====
section
/-! SUPPORT. What each shared operation can do, said once: the lemmas later proofs cite instead of unfolding it. -/

namespace Sys2Proof.Machine

/-! ### andThen -/

@[simp] theorem andThen_next {α β : Type} (a : α) (f : α → Result β) : andThen (.next a) f = f a := rfl

@[simp] theorem andThen_fault {α β : Type} (r : Fault) (f : α → Result β) : andThen (.fault r) f = .fault r := rfl

@[simp] theorem andThen_refused {α β : Type} (r : Refusal) (f : α → Result β) :
    andThen (.refused r) f = .refused r := rfl

theorem andThen_eq_next {α β : Type} {o : Result α} {f : α → Result β} {b : β} :
    andThen o f = .next b ↔ ∃ a, o = .next a ∧ f a = .next b := by
  cases o <;> simp [andThen]

/-! ### The message port -/

theorem memRead_of_answer {s : State} {a : Nat} {b : Byte} (h : Memory.read s.source a = some b) :
    memRead s a =
      .next (b, { s with transfers := s.transfers ++ [⟨BitVec.ofNat 61 a, b⟩], held := s.held ++ [b] }) := by
  simp [memRead, h]

theorem memRead_of_silence {s : State} {a : Nat} (h : Memory.read s.source a = none) :
    memRead s a = .fault (.sourceSilent a) := by
  simp [memRead, h]

/-- A read that completes gives the source's answer, keeps it for the step and records the transfer, and does nothing else. -/
theorem memRead_next {s s' : State} {a : Nat} {b : Byte} (h : memRead s a = .next (b, s')) :
    Memory.read s.source a = some b ∧
      s' = { s with transfers := s.transfers ++ [⟨BitVec.ofNat 61 a, b⟩], held := s.held ++ [b] } := by
  cases hr : Memory.read s.source a with
  | none => simp [memRead, hr] at h
  | some c =>
    simp [memRead, hr] at h
    exact ⟨by simp [h.1], by rw [← h.2, h.1]⟩

/-! ### The padded message -/

/-- `s` with some more transfers made, and their answers kept for the step under way. -/
abbrev State.withReads (s : State) (r : List PortRead) : State :=
  { s with transfers := s.transfers ++ r, held := s.held ++ r.map (·.mdata) }

@[simp] theorem State.withReads_nil (s : State) : s.withReads [] = s := by
  simp [State.withReads]

theorem State.withReads_withReads (s : State) (r r' : List PortRead) :
    (s.withReads r).withReads r' = s.withReads (r ++ r') := by
  simp [State.withReads]

/-- A PM byte that is evaluated changes nothing but the reads made. -/
theorem pmByte_next {s s' : State} {i : Nat} {b : Byte} (h : pmByte s i = .next (b, s')) :
    ∃ r, s' = s.withReads r := by
  unfold pmByte at h
  split at h
  · exact ⟨[⟨BitVec.ofNat 61 i, b⟩], (memRead_next h).2⟩
  · refine ⟨[], ?_⟩
    rw [State.withReads_nil]
    split at h
    · simp at h; exact h.2.symm
    · split at h
      · simp at h; exact h.2.symm
      · split at h
        · simp at h; exact h.2.symm
        · simp at h

/-- A byte of LDW's word that is had changes nothing but the reads made. -/
theorem pmWordByte_next {s s' : State} {a k : Nat} {b : Byte} (h : pmWordByte s a k = .next (b, s')) :
    ∃ r, s' = s.withReads r := by
  unfold pmWordByte at h
  split at h
  · refine ⟨[], ?_⟩
    rw [State.withReads_nil]
    simp at h; exact h.2.symm
  · exact pmByte_next h

/-- A byte that the held step already has is not read again. -/
theorem pmWordByte_of_held {s : State} {a k : Nat} {b : Byte} (hk : a + k < s.len.toNat) (h : s.held[k]? = some b) :
    pmWordByte s a k = .next (b, s) := by
  simp [pmWordByte, hk, h]

/-- A byte that the step under way does not have is `PM(a + k)`. -/
theorem pmWordByte_of_not_held {s : State} {a k : Nat} (h : s.held[k]? = none) : pmWordByte s a k = pmByte s (a + k) := by
  simp [pmWordByte, h]

/-- A PM word that is evaluated changes nothing but the reads made. -/
theorem pmWord_next {s s' : State} {a : Nat} {x : Word} (h : pmWord s a = .next (x, s')) :
    ∃ r, s' = s.withReads r := by
  unfold pmWord at h
  obtain ⟨⟨b0, s0⟩, h0, h⟩ := andThen_eq_next.mp h
  obtain ⟨⟨b1, s1⟩, h1, h⟩ := andThen_eq_next.mp h
  obtain ⟨⟨b2, s2⟩, h2, h⟩ := andThen_eq_next.mp h
  obtain ⟨⟨b3, s3⟩, h3, h⟩ := andThen_eq_next.mp h
  obtain ⟨r0, rfl⟩ := pmWordByte_next h0
  obtain ⟨r1, rfl⟩ := pmWordByte_next h1
  obtain ⟨r2, rfl⟩ := pmWordByte_next h2
  obtain ⟨r3, rfl⟩ := pmWordByte_next h3
  simp only [State.withReads_withReads, Host.Outcome.next.injEq, Prod.mk.injEq] at h
  exact ⟨_, h.2.symm⟩

/-- A word that is had in part changes nothing but the reads made. -/
theorem pmWordSoFar_eq (a n : Nat) : ∀ (s : State) (k : Nat), ∃ r, pmWordSoFar s a k n = s.withReads r := by
  induction n with
  | zero => exact fun s k => ⟨[], by rw [pmWordSoFar, State.withReads_nil]⟩
  | succ n ih =>
    intro s k
    unfold pmWordSoFar
    split
    · next b s' h =>
      obtain ⟨r, rfl⟩ := pmWordByte_next h
      obtain ⟨r', h'⟩ := ih (s.withReads r) (k + 1)
      exact ⟨r ++ r', by rw [h', State.withReads_withReads]⟩
    · exact ⟨[], s.withReads_nil.symm⟩
    · exact ⟨[], s.withReads_nil.symm⟩

/-- A byte of LDW's word is missing only where the source does not answer a message byte that the step does not have yet. -/
theorem pmWordByte_fault {s : State} {a k : Nat} {f : Fault} (h : pmWordByte s a k = .fault f) :
    f = .sourceSilent (a + k) ∧ a + k < s.len.toNat ∧ s.held.length ≤ k ∧ Memory.read s.source (a + k) = none := by
  unfold pmWordByte at h
  split at h
  · simp at h
  · next hn =>
    unfold pmByte at h
    split at h
    · next hk =>
      rw [if_pos hk] at hn
      cases hr : Memory.read s.source (a + k) with
      | some b => simp [memRead, hr] at h
      | none => exact ⟨by simpa [memRead, hr] using h.symm, hk, by simpa using hn, rfl⟩
    · repeat' split at h
      all_goals simp at h

/-- Where LDW's word cannot be had, the source is silent at one of its four addresses, below LEN, and the step waits there with
no more bytes than come before it. -/
theorem pmWord_fault {s : State} {a : Nat} {f : Fault} (h : pmWord s a = .fault f) :
    ∃ k, k < 4 ∧ f = .sourceSilent (a + k) ∧ a + k < s.len.toNat ∧ Memory.read s.source (a + k) = none ∧
      (pmWordSoFar s a 0 4).held.length ≤ k := by
  unfold pmWord at h
  cases h0 : pmWordByte s a 0 with
  | refused r => simp [h0] at h
  | fault f0 =>
    obtain ⟨e, h1, h2, h3⟩ := pmWordByte_fault h0
    simp only [h0, andThen_fault, Host.Outcome.fault.injEq] at h
    exact ⟨0, by omega, h ▸ e, h1, h3, by simpa only [pmWordSoFar, h0] using h2⟩
  | next p =>
    obtain ⟨b0, s0⟩ := p
    obtain ⟨r0, rfl⟩ := pmWordByte_next h0
    simp only [h0, andThen_next] at h
    cases h1 : pmWordByte (s.withReads r0) a 1 with
    | refused r => simp [h1] at h
    | fault f0 =>
      obtain ⟨e, hl, hh, hr⟩ := pmWordByte_fault h1
      simp only [h1, andThen_fault, Host.Outcome.fault.injEq] at h
      exact ⟨1, by omega, h ▸ e, hl, hr, by simpa only [pmWordSoFar, h0, h1] using hh⟩
    | next p =>
      obtain ⟨b1, s1⟩ := p
      obtain ⟨r1, rfl⟩ := pmWordByte_next h1
      simp only [h1, andThen_next] at h
      cases h2 : pmWordByte ((s.withReads r0).withReads r1) a 2 with
      | refused r => simp [h2] at h
      | fault f0 =>
        obtain ⟨e, hl, hh, hr⟩ := pmWordByte_fault h2
        simp only [h2, andThen_fault, Host.Outcome.fault.injEq] at h
        exact ⟨2, by omega, h ▸ e, hl, hr, by simpa only [pmWordSoFar, h0, h1, h2] using hh⟩
      | next p =>
        obtain ⟨b2, s2⟩ := p
        obtain ⟨r2, rfl⟩ := pmWordByte_next h2
        simp only [h2, andThen_next] at h
        cases h3 : pmWordByte (((s.withReads r0).withReads r1).withReads r2) a 3 with
        | refused r => simp [h3] at h
        | fault f0 =>
          obtain ⟨e, hl, hh, hr⟩ := pmWordByte_fault h3
          simp only [h3, andThen_fault, Host.Outcome.fault.injEq] at h
          exact ⟨3, by omega, h ▸ e, hl, hr, by simpa only [pmWordSoFar, h0, h1, h2, h3] using hh⟩
        | next p => simp [h3] at h

/-- A held LDW changes nothing but the reads made. -/
theorem holdLdw_eq (s : State) : ∃ r, holdLdw s = s.withReads r := pmWordSoFar_eq _ _ _ _

end Sys2Proof.Machine
end

