-- ==== Sys2Proof/Laws/PerInstr.lean ====
section
/-! SUPPORT. A statement about every instruction as syntax, one lemma per constructor: the word of a well-formed instruction
is of the format, and has the fixed bits, of a row of spec/opcode_table.json with its mnemonic (R82, R87). -/

namespace Sys2Proof.Laws.EncodesInRow

/-- A command's word has its opcode in bits 63:61; a micro-operation's word is selected by a row of its own. -/
def Statement : Instr → Prop
  | .init => ∃ w, encode .init = some (.cmd w) ∧ w &&& cmdMask = 0x2000000000000000#64
  | .start n => (Instr.start n).wf = true → ∃ w, encode (.start n) = some (.cmd w) ∧ cmdOp w = 0b010#3 ∧ (cmdArg w).toNat = n
  | i => ∃ w r, encode i = some (.seq w) ∧ r ∈ seqTable ∧ r.op = i ∧ r.selects w = true

theorem init : Statement .init := ⟨_, rfl, by decide⟩

theorem start (n : Nat) : Statement (.start n) := by
  intro h
  have hn : n < 2 ^ 61 := of_decide_eq_true h
  refine ⟨_, if_pos h, cmdOp_mkCmdWord _ _, ?_⟩
  rw [cmdArg_mkCmdWord, BitVec.toNat_ofNat, Nat.mod_eq_of_lt hn]

theorem begin : Statement .begin := ⟨_, ⟨.begin, 0x080#11, 0x380#11⟩, rfl, by decide, rfl, by decide⟩

theorem ldw : Statement .ldw := ⟨_, ⟨.ldw, 0x100#11, 0x3F0#11⟩, rfl, by decide, rfl, by decide⟩

theorem exp : Statement .exp := ⟨_, ⟨.exp, 0x110#11, 0x3F0#11⟩, rfl, by decide, rfl, by decide⟩

theorem seed : Statement .seed := ⟨_, ⟨.seed, 0x140#11, 0x3FF#11⟩, rfl, by decide, rfl, by decide⟩

theorem rnd : Statement .rnd := ⟨_, ⟨.rnd, 0x180#11, 0x3C0#11⟩, rfl, by decide, rfl, by decide⟩

theorem fold : Statement .fold := ⟨_, ⟨.fold, 0x1C0#11, 0x3FF#11⟩, rfl, by decide, rfl, by decide⟩

theorem next : Statement .next := ⟨_, ⟨.next, 0x1C1#11, 0x7FF#11⟩, rfl, by decide, rfl, by decide⟩

theorem ser : Statement .ser := ⟨_, ⟨.ser, 0x5C1#11, 0x7FF#11⟩, rfl, by decide, rfl, by decide⟩

end Sys2Proof.Laws.EncodesInRow
end

