-- ==== Sys2Proof/Laws/Step.lean ====
section
/-! SUPPORT. What a meaning, an engine step and a step of the machine can do when they answer a next state: one inversion
lemma each, from which invariants and frames follow. -/

namespace Sys2Proof.Machine

/-! ### The meanings -/

theorem execInit_next {s t : State} (h : execInit s = .next t) :
    ready s = true ∧ t = { s with h := iv, phase := Phase.init } := by
  unfold execInit at h; split at h <;> simp_all

theorem execStart_next {n : Nat} {s t : State} (h : execStart n s = .next t) :
    ready s = true ∧
    ((s.phase = Phase.init ∧ n < 2 ^ 61 ∧ t = { s with len := BitVec.ofNat 61 n, phase := Phase.paddingDone }) ∨
      (¬(s.phase = Phase.init ∧ n < 2 ^ 61) ∧ t = s)) := by
  unfold execStart at h
  split at h
  · next hr =>
    refine ⟨hr, ?_⟩
    split at h
    · next hc => exact .inl ⟨hc.1, hc.2, by simpa using h.symm⟩
    · next hc => exact .inr ⟨hc, by simpa using h.symm⟩
  · simp at h

theorem execBegin_next {s t : State} (h : execBegin s = .next t) :
    s.phase = Phase.paddingDone ∧ t = setSequencer s Phase.scheduling 0#56 0#7 := by
  unfold execBegin at h; split at h <;> simp_all

theorem execLdw_next {s t : State} (h : execLdw s = .next t) :
    ∃ (hc : s.phase = Phase.scheduling ∧ s.t.toNat ≤ 15) (word : Word) (r : List PortRead),
      t = advance { s with w := s.w.set s.t.toNat word, transfers := s.transfers ++ r, held := [] } := by
  unfold execLdw at h
  split at h
  · next hc =>
    obtain ⟨⟨word, s'⟩, hw, h⟩ := andThen_eq_next.mp h
    obtain ⟨r, rfl⟩ := pmWord_next hw
    exact ⟨hc, word, r, by simpa using h.symm⟩
  · simp at h

/-- An LDW that is held up: it waits at the first byte the source does not answer. -/
theorem execLdw_fault {s : State} {f : Fault} (h : execLdw s = .fault f) :
    (s.phase = Phase.scheduling ∧ s.t.toNat ≤ 15) ∧
    ∃ k, k < 4 ∧ f = .sourceSilent (ldwAddress s + k) ∧ ldwAddress s + k < s.len.toNat ∧
      Memory.read s.source (ldwAddress s + k) = none ∧ (holdLdw s).held.length ≤ k := by
  unfold execLdw at h
  split at h
  · next hc =>
    refine ⟨hc, pmWord_fault ?_⟩
    cases hw : pmWord s (ldwAddress s) with
    | next p => simp [hw] at h
    | fault g => simpa [hw] using h
    | refused r => simp [hw] at h
  · simp at h

theorem execExp_next {s t : State} (h : execExp s = .next t) :
    ∃ hc : s.phase = Phase.scheduling ∧ 16 ≤ s.t.toNat ∧ s.t.toNat ≤ 63,
      t = advance { s with w := s.w.set s.t.toNat (expandedWord s.w s.t.toNat hc.2) } := by
  unfold execExp at h
  split at h
  · next hc => exact ⟨hc, by simpa using h.symm⟩
  · simp at h

theorem execSeed_next {s t : State} (h : execSeed s = .next t) :
    (s.phase = Phase.scheduling ∧ s.t = 64#7) ∧
      t = setSequencer { s with v := s.h } Phase.compressing s.blk 0#7 := by
  unfold execSeed at h; split at h <;> simp_all

theorem execRnd_next {s t : State} (h : execRnd s = .next t) :
    ∃ hc : s.phase = Phase.compressing ∧ s.t.toNat ≤ 63,
      t = advance { s with v := compressRound s.v kTable[s.t.toNat] s.w[s.t.toNat] } := by
  unfold execRnd at h
  split at h
  · next hc => exact ⟨hc, by simpa using h.symm⟩
  · simp at h

theorem execFold_next {s t : State} (h : execFold s = .next t) :
    (s.phase = Phase.compressing ∧ s.t = 64#7) ∧ t = { s with h := foldWords s.h s.v, t := 65#7 } := by
  unfold execFold at h; split at h <;> simp_all

theorem execNext_next {s t : State} (h : execNext s = .next t) :
    (s.phase = Phase.compressing ∧ s.t = 65#7 ∧ last s = false) ∧
      t = setSequencer s Phase.scheduling (s.blk + 1#56) 0#7 := by
  unfold execNext at h; split at h <;> simp_all

theorem execSer_next {s t : State} (h : execSer s = .next t) :
    (s.phase = Phase.compressing ∧ s.t = 65#7 ∧ last s = true) ∧
      t = { s with digest := serialize s.h, phase := Phase.finalized } := by
  unfold execSer at h; split at h <;> simp_all

/-! ### The engine's step -/

/-- The engine runs the selected micro-operation, or idles in a quiescent phase. -/
theorem engineStep_next {s t : State} (h : engineStep s = .next t) :
    (∃ i, selected s = .ok i ∧ exec i s = .next t) ∨ ((∃ e, selected s = .error e) ∧ t = s) := by
  unfold engineStep at h
  split at h
  · next i hi => exact .inl ⟨i, hi, h⟩
  · simp at h
  · next e _ he => exact .inr ⟨⟨e, he⟩, by simpa using h.symm⟩

/-- The engine is stuck only on an unreachable sequencer word, or in an LDW that is held up. -/
theorem engineStep_fault {s : State} {f : Fault} (h : engineStep s = .fault f) :
    (selected s = .error .unreachableWord ∧ f = .stuckSequencer) ∨ (selected s = .ok .ldw ∧ execLdw s = .fault f) := by
  unfold engineStep at h
  split at h
  · next i hi =>
    cases i with
    | ldw => exact .inr ⟨hi, h⟩
    | init => simp only [exec, execInit] at h; split at h <;> simp at h
    | start n => simp only [exec, execStart] at h; repeat' split at h
                 all_goals simp at h
    | begin => simp only [exec, execBegin] at h; split at h <;> simp at h
    | exp => simp only [exec, execExp] at h; split at h <;> simp at h
    | seed => simp only [exec, execSeed] at h; split at h <;> simp at h
    | rnd => simp only [exec, execRnd] at h; split at h <;> simp at h
    | fold => simp only [exec, execFold] at h; split at h <;> simp at h
    | next => simp only [exec, execNext] at h; split at h <;> simp at h
    | ser => simp only [exec, execSer] at h; split at h <;> simp at h
  · next hu => exact .inl ⟨hu, by simpa using h.symm⟩
  · simp at h

theorem engineStep_of_selected {s : State} {i : Instr} (h : selected s = .ok i) : engineStep s = exec i s := by
  simp [engineStep, h]

theorem engineStep_of_quiescent {s : State} (h : selected s = .error .quiescentPhase) : engineStep s = .next s := by
  simp [engineStep, h]

/-! ### The machine's step -/

theorem step_of_script_nil {s : State} (h : s.script = []) : step s = engineStep s := by
  simp [step, machineStep, h]

theorem step_of_script_cons {s : State} {e : HostEvent} {rest : List HostEvent} (h : s.script = e :: rest) :
    step s = eventStep e rest s := by
  simp [step, machineStep, h]

/-- Everything a step can do when it answers a next state: the engine steps (nothing scripted, or a command or a WAIT is
held), or the script's next event takes place. -/
theorem step_next {s t : State} (h : step s = .next t) :
    (s.script = [] ∧ engineStep s = .next t) ∨
    ∃ e rest, s.script = e :: rest ∧
      ((e = .reset ∧ t = resetBlock { s with script := rest }) ∨
       (e = .observe ∧ t = observe { s with script := rest }) ∨
       (e = .readDigest ∧ t = readDigest { s with script := rest }) ∨
       (∃ a b, e = .supply a b ∧ t = { s with script := rest, source := Memory.write s.source a.toNat b }) ∨
       (∃ a, e = .withdraw a ∧ t = { s with script := rest, source := Memory.erase s.source a.toNat }) ∨
       (∃ w i, e = .command w ∧ ready s = true ∧ decodeCmd w = .ok i ∧ exec i { s with script := rest } = .next t) ∨
       (∃ w r, e = .command w ∧ ready s = true ∧ decodeCmd w = .error r ∧ t = { s with script := rest }) ∨
       (∃ w, e = .command w ∧ ready s = false ∧ engineStep s = .next t) ∨
       (e = .wait ∧ done s = true ∧ t = { s with script := rest }) ∨
       (e = .wait ∧ done s = false ∧ engineStep s = .next t) ∨
       (e = .pass ∧ engineStep { s with script := rest } = .next t) ∨
       (e = .pass ∧ (∃ a, engineStep { s with script := rest } = .fault (.sourceSilent a)) ∧
         t = holdLdw { s with script := rest }) ∨
       (e = .pass ∧ engineStep { s with script := rest } = .fault .stuckSequencer ∧ t = { s with script := rest })) := by
  cases hs : s.script with
  | nil => exact .inl ⟨rfl, by rw [← step_of_script_nil hs, h]⟩
  | cons e rest =>
    refine .inr ⟨e, rest, rfl, ?_⟩
    rw [step_of_script_cons hs] at h
    cases e with
    | reset => simp_all [eventStep]
    | observe => simp_all [eventStep]
    | readDigest => simp_all [eventStep]
    | supply a b => simp_all [eventStep]
    | withdraw a => simp_all [eventStep]
    | command w =>
      cases hr : ready s with
      | false => simp_all [eventStep]
      | true =>
        cases hd : decodeCmd w with
        | ok i => simp_all [eventStep, transferCommand]
        | error r => simp_all [eventStep, transferCommand]
    | wait => cases hd : done s <;> simp_all [eventStep]
    | pass =>
      cases he : engineStep { s with script := rest } with
      | next u => simp_all [eventStep]
      | fault f => cases f <;> simp_all [eventStep]
      | refused r => simp_all [eventStep]

end Sys2Proof.Machine
end

