-- ==== Sys2Proof/Tests/Slice0.lean ====
section
/-! SUPPORT. The model's own tests. Expected values are the spec's: the vectors T8 to T15 of spec/95_test_vectors.md, worked
examples of the rules, and words written out from spec/30_encoding.md. Then one witness for the hypotheses of each statement
of Certificates/Slice0/Obligations.lean. -/

namespace Sys2Proof.Tests

open Sys2Proof Sys2Proof.Machine Sys2Proof.Safety

/-- What a test looks at in the next state, if there is one. -/
def after {α : Type} (o : Result State) (f : State → α) : Option α :=
  match o with
  | .next s => some (f s)
  | _ => none

/-- A state of the block loop: phase, block and step counter, a message length, and a source that answers these bytes. -/
def at' (phase : PhaseCode) (blk : BlkIdx) (t : StepIdx) (len : MsgLen) (bytes : List Byte) : State :=
  { State.reset with
    phase := phase, blk := blk, t := t, len := len
    source := bytes.zipIdx.map fun (b, i) => (i, b) }

/-- The message "abc". -/
def abc : List Byte := [0x61#8, 0x62#8, 0x63#8]

/-! ### WellFormed: the ill-formed term of its one check -/

theorem test_wf_refuses_long_start : (Instr.start (2 ^ 61)).wf = false := by decide

theorem test_wf_admits_longest_start : (Instr.start (2 ^ 61 - 1)).wf = true := by decide

/-! ### Decoding: words written out from R82 and R87, by family -/

theorem test_decode_init_ignores_arg : decode (.cmd 0x3FFFFFFFFFFFFFFF#64) = .ok .init := by decide

theorem test_decode_start_3 : decode (.cmd 0x4000000000000003#64) = .ok (.start 3) := by decide

theorem test_decode_reserved_op_0 : decode (.cmd 0x0000000000000000#64) = .error .reservedOpcode := by decide

theorem test_decode_reserved_op_3 : decode (.cmd 0x6000000000000000#64) = .error .reservedOpcode := by decide

theorem test_decode_begin_any_t_and_last : decode (.seq 0b1_001_1011101#11) = .ok .begin := by decide

theorem test_decode_ldw : decode (.seq 0b1_010_0001111#11) = .ok .ldw := by decide

theorem test_decode_exp_first_row : decode (.seq 0b0_010_0010000#11) = .ok .exp := by decide

theorem test_decode_exp_second_row : decode (.seq 0b1_010_0111111#11) = .ok .exp := by decide

theorem test_decode_seed : decode (.seq 0b0_010_1000000#11) = .ok .seed := by decide

theorem test_decode_rnd : decode (.seq 0b1_011_0111111#11) = .ok .rnd := by decide

theorem test_decode_fold : decode (.seq 0b1_011_1000000#11) = .ok .fold := by decide

theorem test_decode_next : decode (.seq 0b0_011_1000001#11) = .ok .next := by decide

theorem test_decode_ser : decode (.seq 0b1_011_1000001#11) = .ok .ser := by decide

theorem test_decode_quiescent : decode (.seq 0b1_100_1000001#11) = .error .quiescentPhase := by decide

theorem test_decode_unreachable_t65 : decode (.seq 0b0_010_1000001#11) = .error .unreachableWord := by decide

theorem test_decode_unreachable_phase7 : decode (.seq 0b1_111_1111111#11) = .error .unreachableWord := by decide

theorem test_encode_start_56 : encode (.start 56) = some (.cmd 0x4000000000000038#64) := by decide

theorem test_encode_ser : encode .ser = some (.seq 0x5C1#11) := by decide

/-- R202: a length of 2^61 + 3 is not truncated to 3. -/
theorem test_encode_long_start : encode (.start (2 ^ 61 + 3)) = none := by decide

/-! ### Word operations and tables (T8, T8a, T8b, R112, R113) -/

theorem test_rotr_direction : rotr 0x00000001#32 1 = 0x80000000#32 := by decide

theorem test_sigma0 : sigma0 0x61626380#32 = 0x940E90EF#32 := by decide

theorem test_sigma1 : sigma1 0x12345678#32 = 0xA1F78649#32 := by decide

theorem test_S0 : bigS0 0x6A09E667#32 = 0xCE20B47E#32 := by decide

theorem test_S1 : bigS1 0x510E527F#32 = 0x3587272B#32 := by decide

theorem test_ch : ch 0x510E527F#32 0x9B05688C#32 0x1F83D9AB#32 = 0x1F85C98C#32 := by decide

theorem test_maj : maj 0x510E527F#32 0x9B05688C#32 0x1F83D9AB#32 = 0x1B0758AF#32 := by decide

theorem test_K_63 : kTable[63] = 0xC67178F2#32 := by decide

theorem test_IV_7 : iv[7] = 0x5BE0CD19#32 := by decide

/-! ### Padding (T9) -/

theorem test_nblk_boundary : nblk 55 = 1 ∧ nblk 56 = 2 ∧ nblk 119 = 2 ∧ nblk 120 = 3 := by decide

theorem test_zpad_boundary : zpad 55 = 0 ∧ zpad 56 = 63 := by decide

theorem test_length_field_longest : lengthField 0x1FFFFFFFFFFFFFFF#61 7 = 0xF8#8 := by decide

theorem test_length_field_first_byte : lengthField 0x1FFFFFFFFFFFFFFF#61 0 = 0xFF#8 := by decide

/-! ### One step of each instruction -/

/-- T14: INIT in FINALIZED reloads H and leaves DONE = 0. -/
theorem test_init_in_finalized :
    after (exec .init { at' 4#3 0 65 3 abc with h := Vector.replicate 8 0#32 }) (fun s => (s.h[0], s.phase, done s)) =
      some (0x6A09E667#32, 0#3, false) := by decide

/-- T14: START 3 in phase INIT, through the port. -/
theorem test_start_through_port :
    after (step { State.reset with script := [.command 0x4000000000000003#64] }) (fun s => (s.len, s.phase, ready s)) =
      some (3#61, 1#3, false) := by decide

/-- T14: START in FINALIZED is discarded. -/
theorem test_start_in_finalized : after (exec (.start 3) (at' 4#3 0 65 56 [])) (fun s => (s.len, s.phase)) =
    some (56#61, 4#3) := by decide

/-- R185: after START 3, BEGIN leads to (2, 0, 0) with LAST = 1. -/
theorem test_begin : after (exec .begin (at' 1#3 9 93 3 abc)) (fun s => (s.phase, s.blk, s.t, last s)) =
    some (2#3, 0#56, 0#7, true) := by decide

/-- T10: LEN = 3, T = 0 gives W[0] = 61626380 with the reads 0, 1, 2. -/
theorem test_ldw_abc_first : after (exec .ldw (at' 2#3 0 0 3 abc)) (fun s => (s.w[0], s.t, s.transfers.map (·.maddr))) =
    some (0x61626380#32, 1#7, [0#61, 1#61, 2#61]) := by decide

/-- T10: LEN = 56, BLK = 1, T = 15 gives the low word of the bit length, with no read. -/
theorem test_ldw_length_word : after (exec .ldw (at' 2#3 1 15 56 [])) (fun s => (s.w[15], s.t, s.transfers)) =
    some (0x000001C0#32, 16#7, []) := by decide

/-- T11: W[17] of "abc" is sigma1(00000018) = 000F0000. -/
theorem test_exp_17 :
    after (exec .exp { at' 2#3 0 17 3 abc with w := (Vector.replicate 64 0#32).set 15 0x18#32 }) (fun s => (s.w[17], s.t)) =
      some (0x000F0000#32, 18#7) := by decide

/-- T11: all operands FFFFFFFF at t = 40, three carries lost. -/
theorem test_exp_carries : after (exec .exp (at' 2#3 0 40 3 abc)) (fun s => (s.w[40], s.w[41])) =
    some (0x203FFFFC#32, 0xFFFFFFFF#32) := by decide

/-- T12: SEED of block 0. -/
theorem test_seed : after (exec .seed (at' 2#3 0 64 3 abc)) (fun s => (s.v[0], s.v[7], s.phase, s.t)) =
    some (0x6A09E667#32, 0x5BE0CD19#32, 3#3, 0#7) := by decide

/-- T12a: round 0 of "abc". -/
theorem test_rnd_abc_0 :
    after (exec .rnd { at' 3#3 0 0 3 abc with v := iv, w := (Vector.replicate 64 0#32).set 0 0x61626380#32 })
      (fun s => (s.v, s.t)) =
      some (#v[0x5D6AEBCD#32, 0x6A09E667#32, 0xBB67AE85#32, 0x3C6EF372#32, 0xFA2A4622#32, 0x510E527F#32, 0x9B05688C#32,
        0x1F83D9AB#32], 1#7) := by decide

/-- T12a: all ones, round 63. -/
theorem test_rnd_ones_63 : after (exec .rnd (at' 3#3 0 63 3 abc)) (fun s => (s.v[0], s.v[4], s.t)) =
    some (0xC67178EC#32, 0xC67178ED#32, 64#7) := by decide

/-- T12d: the end of the "abc" block. -/
theorem test_fold_abc :
    after (exec .fold { at' 3#3 0 64 3 abc with
      v := #v[0x506E3058#32, 0xD39A2165#32, 0x04D24D6C#32, 0xB85E2CE9#32, 0x5EF50F24#32, 0xFB121210#32, 0x948D25B6#32,
        0x961F4894#32] }) (fun s => (s.h[0], s.h[1], s.h[7], s.t)) =
      some (0xBA7816BF#32, 0x8F01CFEA#32, 0xF20015AD#32, 65#7) := by decide

/-- R187: LEN = 56, (3, 0, 65) with LAST = 0 becomes (2, 1, 0), and LAST = 1. -/
theorem test_next : after (exec .next (at' 3#3 0 65 56 [])) (fun s => (s.phase, s.blk, s.t, last s)) =
    some (2#3, 1#56, 0#7, true) := by decide

/-- T13, third row: zero bytes inside words are serialized. -/
theorem test_ser :
    after (exec .ser { at' 3#3 0 65 3 abc with
      h := #v[0x00000001#32, 0x00000200#32, 0x00030000#32, 0x04000000#32, 0#32, 0xFFFFFFFF#32, 0x80000000#32,
        0x0A0B0C0D#32] })
      (fun s => (s.digest[0], s.digest[3], s.digest[6], s.digest[28], s.digest[31], s.phase)) =
      some (0x00#8, 0x01#8, 0x02#8, 0x0A#8, 0x0D#8, 4#3) := by decide

/-- R203: the source does not answer address 2. -/
theorem test_ldw_silent : (match exec .ldw (at' 2#3 0 0 3 [0x61#8, 0x62#8]) with
    | .fault f => decide (f = .sourceSilent 2) | _ => false) = true := by decide

/-- R62: the reads before the unanswered one are made, and kept. -/
theorem test_held_ldw_keeps_its_reads :
    after (step { at' 2#3 0 0 3 [0x61#8, 0x62#8] with script := [.pass] })
      (fun s => (s.held, s.transfers.map (·.maddr), s.t, s.w[0])) =
      some ([0x61#8, 0x62#8], [0#61, 1#61], 0#7, 0xFFFFFFFF#32) := by decide

/-- R63: the byte 0 that the held step has is not read again, even where the source no longer answers it. -/
theorem test_held_ldw_never_rereads :
    after (exec .ldw { at' 2#3 0 0 3 [] with held := [0x61#8], source := [(1, 0x62#8), (2, 0x63#8)] })
      (fun s => (s.w[0], s.t, s.held, s.transfers.map (·.maddr))) =
      some (0x61626380#32, 1#7, [], [1#61, 2#61]) := by decide

/-- R232: a reset abandons the held step, and its reads are not undone. -/
theorem test_reset_keeps_reads_made :
    after (step { at' 2#3 0 0 3 [] with held := [0x61#8], transfers := [⟨0#61, 0x61#8⟩], script := [.reset] })
      (fun s => (s.held, s.transfers, s.phase)) = some ([], [⟨0#61, 0x61#8⟩], 0#3) := by decide

/-- R177, R202: the host stops on a length of 2^61 + 3, and does not start with length 3. -/
theorem test_host_rejects_long_input :
    (match hashScript (at' 0#3 0 0 3 abc).source (2 ^ 61 + 3) with
      | .error e => decide (e = .inputTooLarge) | .ok _ => false) = true := by decide

/-- R177, R201: the host stops where the source lacks the last of four bytes. -/
theorem test_host_rejects_unavailable_input :
    (match hashScript (at' 0#3 0 0 3 abc).source 4 with
      | .error e => decide (e = .inputUnavailable) | .ok _ => false) = true := by decide

/-- R179: changing or withholding an unread message byte in a busy phase breaks the rules; looking at PHASE does not. -/
theorem test_host_rules :
    hostKeepsRules { at' 2#3 0 0 3 abc with script := [.supply 2#61 0x00#8] } = false ∧
    hostKeepsRules { at' 2#3 0 0 3 abc with script := [.withdraw 2#61] } = false ∧
    hostKeepsRules { at' 2#3 0 0 3 abc with script := [.readDigest] } = false ∧
    hostKeepsRules { at' 2#3 0 0 3 abc with script := [.observe] } = true ∧
    hostKeepsRules { at' 4#3 0 65 3 abc with script := [.withdraw 2#61] } = true := by decide

/-- R170: a command presented while READY = 0 is held and the engine steps. -/
theorem test_command_held :
    after (step { at' 1#3 0 0 3 abc with script := [.command 0x2000000000000000#64] }) (fun s => (s.phase, s.script)) =
      some (2#3, [.command 0x2000000000000000#64]) := by decide

/-- R231: a reset in mid-computation. -/
theorem test_reset_in_busy_phase :
    after (step { at' 2#3 0 49 3 abc with script := [.reset] }) (fun s => (s.phase, s.h[0], s.transfers)) =
      some (0#3, 0x6A09E667#32, []) := by decide

/-- The longest SEQ don't-care word and a CMD word, placed and run first after reset. -/
theorem test_placed_words_run :
    after (step (State.withFetchWord State.reset 16 0x4DD)) (fun s => s.phase) = some 2#3 ∧
    after (step (State.withFetchWord State.reset 16 0x100)) (fun s => s.t) = some 1#7 ∧
    after (step (State.withFetchWord State.reset 16 0x1C1)) (fun s => s.blk) = some 1#56 ∧
    after (step (State.withFetchWord State.reset 64 0x4000000000000003)) (fun s => s.len) = some 3#61 := by decide

/-! ### Witnesses: the hypotheses of each statement are met together -/

/-- A state that holds a script. -/
def scripted (s : State) (l : List HostEvent) : State := { s with script := l }

/-- The bytes of "abc" as an oracle. -/
def abcOracle (i : Nat) : Byte := abc.getD i 0

/-- PADDING_DONE with "abc" held by the source and H = IV. -/
def padded3 : State := at' 1#3 0 0 3 abc

theorem witness_DecodeOfEncodeIsTheInstruction :
    Instr.wf (.start (2 ^ 61 - 1)) = true ∧ Instr.wf .ser = true ∧ Instr.wf (.start (2 ^ 61)) = false := by decide

theorem witness_StepRunsTheSelectedMicroOperation :
    selected padded3 = .ok .begin ∧ padded3.script = [] ∧
    selected (scripted padded3 [.command 0#64]) = .ok .begin ∧
    selected (scripted padded3 [.wait]) = .ok .begin ∧
    selected (scripted padded3 [.pass]) = .ok .begin ∧
    ∃ t, exec .begin (scripted padded3 []) = .next t := ⟨by decide, by decide, by decide, by decide, by decide, _, rfl⟩

theorem witness_StepTransfersThePresentedCommand :
    ready (scripted State.reset [.command 0x2000000000000000#64]) = true ∧
    decodeCmd 0x2000000000000000#64 = .ok .init ∧ decodeCmd 0xE000000000000000#64 = .error .reservedOpcode := by decide

theorem witness_HeldCommandStaysPresented :
    ready (scripted padded3 [.command 0#64]) = false ∧ ∃ t, step (scripted padded3 [.command 0#64]) = .next t :=
  ⟨by decide, _, rfl⟩

theorem witness_NotEnabledIsRefusedExactlyWhenNotEnabled :
    Instr.ser ∈ [Instr.begin, .ldw, .exp, .seed, .rnd, .fold, .next, .ser] := by decide

theorem witness_InitReloadsHashStateAndPhase :
    State.reset.phase = Phase.init ∧ (at' 4#3 0 65 3 abc).phase = Phase.finalized := by decide

theorem witness_StartLatchesLengthInPhaseInit :
    State.reset.phase = Phase.init ∧ (at' 4#3 0 65 3 abc).phase = Phase.finalized := by decide

theorem witness_StartOfInexpressibleLengthChangesNothing : ready State.reset = true ∧ 2 ^ 61 ≤ 2 ^ 61 := by decide

theorem witness_BeginEntersTheBlockLoop :
    (at' 1#3 0 0 55 []).phase = Phase.paddingDone ∧ (at' 1#3 0 0 56 []).phase = Phase.paddingDone := by decide

theorem witness_LdwLoadsOneScheduleWord :
    ((at' 2#3 0 0 3 abc).t.toNat ≤ 15 ∧ (at' 2#3 0 0 3 abc).phase = Phase.scheduling ∧ (at' 2#3 0 0 3 abc).held = [] ∧
      (at' 2#3 0 0 3 abc).blk.toNat < nblk (at' 2#3 0 0 3 abc).len.toNat ∧
      ∀ k, k < 4 → 64 * 0 + 4 * 0 + k < 3 →
        Memory.read (at' 2#3 0 0 3 abc).source (64 * 0 + 4 * 0 + k) = some (abcOracle (64 * 0 + 4 * 0 + k))) ∧
    ((at' 2#3 0 15 3 abc).t.toNat ≤ 15 ∧ (at' 2#3 0 15 3 abc).phase = Phase.scheduling ∧
      (at' 2#3 0 15 3 abc).blk.toNat < nblk (at' 2#3 0 15 3 abc).len.toNat) := by decide

/-- LDW held at address 2 of "abc", which the source now answers; it no longer answers 0 and 1. -/
def heldAbc : State := { at' 2#3 0 0 3 [] with held := [0x61#8, 0x62#8], source := [(2, 0x63#8)] }

theorem witness_HeldLdwReadsOnlyTheRest :
    heldAbc.t.toNat ≤ 15 ∧ heldAbc.held ≠ [] ∧ heldAbc.phase = Phase.scheduling ∧
    heldAbc.blk.toNat < nblk heldAbc.len.toNat ∧
    ∀ k, k < 4 → ldwAddress heldAbc + k < heldAbc.len.toNat →
      ldwAnswer heldAbc k = some (abcOracle (ldwAddress heldAbc + k)) := by decide

theorem witness_LdwIsStuckAtASilentAddress :
    (∀ j, j < 2 → (ldwAnswer (at' 2#3 0 0 3 [0#8, 0#8]) j).isSome = true) ∧
    ldwAnswer (at' 2#3 0 0 3 [0#8, 0#8]) 2 = none ∧ ldwAnswer (at' 2#3 0 0 1 []) 0 = none ∧
    64 * 0 + 4 * 0 + 2 < (at' 2#3 0 0 3 [0#8, 0#8]).len.toNat ∧ 64 * 0 + 4 * 0 + 0 < (at' 2#3 0 0 1 []).len.toNat := by
  decide

theorem witness_HeldLdwKeepsTheReadsItHasMade :
    (scripted (at' 2#3 0 0 3 [0x61#8, 0x62#8]) [.pass]).script = [.pass] ∧
    ldwAddress (scripted (at' 2#3 0 0 3 [0x61#8, 0x62#8]) [.pass]) + 2 < 3 ∧
    (∀ j, j < 2 → ldwAnswer (scripted (at' 2#3 0 0 3 [0x61#8, 0x62#8]) [.pass]) j = some (abcOracle (0 + j))) ∧
    ldwAnswer (scripted (at' 2#3 0 0 3 [0x61#8, 0x62#8]) [.pass]) 2 = none := by decide

theorem witness_LdwOutsideThePaddedMessageIsRefused :
    (at' 2#3 1 0 3 abc).phase = Phase.scheduling ∧ (at' 2#3 1 0 3 abc).t.toNat ≤ 15 ∧
    nblk (at' 2#3 1 0 3 abc).len.toNat ≤ (at' 2#3 1 0 3 abc).blk.toNat := by decide

theorem witness_ExpDerivesOneScheduleWord :
    (16 ≤ (at' 2#3 0 16 3 abc).t.toNat ∧ (at' 2#3 0 16 3 abc).t.toNat ≤ 63) ∧
    (16 ≤ (at' 2#3 0 63 3 abc).t.toNat ∧ (at' 2#3 0 63 3 abc).t.toNat ≤ 63) ∧
    (at' 2#3 0 63 3 abc).phase = Phase.scheduling := by decide

theorem witness_SeedCopiesTheHashState :
    (at' 2#3 0 64 3 abc).phase = Phase.scheduling ∧ (at' 2#3 0 64 3 abc).t = 64#7 := by decide

theorem witness_RndRunsOneRound :
    (at' 3#3 0 0 3 abc).t.toNat ≤ 63 ∧ (at' 3#3 0 63 3 abc).t.toNat ≤ 63 ∧
    (at' 3#3 0 63 3 abc).phase = Phase.compressing ∧
    (at' 3#3 0 63 3 abc).v = #v[0xFFFFFFFF#32, 0xFFFFFFFF#32, 0xFFFFFFFF#32, 0xFFFFFFFF#32, 0xFFFFFFFF#32, 0xFFFFFFFF#32,
      0xFFFFFFFF#32, 0xFFFFFFFF#32] := by decide

theorem witness_FoldAddsTheWorkingVariables :
    (at' 3#3 0 64 3 abc).phase = Phase.compressing ∧ (at' 3#3 0 64 3 abc).t = 64#7 := by decide

theorem witness_NextGoesToTheFollowingBlock :
    (at' 3#3 0 65 56 []).phase = Phase.compressing ∧ (at' 3#3 0 65 56 []).t = 65#7 ∧
    (at' 3#3 0 65 56 []).blk.toNat + 1 < nblk (at' 3#3 0 65 56 []).len.toNat := by decide

theorem witness_NextWithLastZeroAddsInFiftySixBits :
    (at' 3#3 0xFFFFFFFFFFFFFF#56 65 56 []).phase = Phase.compressing ∧ (at' 3#3 0xFFFFFFFFFFFFFF#56 65 56 []).t = 65#7 ∧
    last (at' 3#3 0xFFFFFFFFFFFFFF#56 65 56 []) = false ∧ last (at' 3#3 0 65 56 []) = false := by decide

theorem witness_SerWritesTheDigest :
    (at' 3#3 0 65 3 abc).phase = Phase.compressing ∧ (at' 3#3 0 65 3 abc).t = 65#7 ∧
    (at' 3#3 0 65 3 abc).blk.toNat + 1 = nblk (at' 3#3 0 65 3 abc).len.toNat := by decide

theorem witness_WordAdditionWrapsAndRotationIsCircular : (1 ≤ 1 ∧ 1 ≤ 31) ∧ (1 ≤ 31 ∧ 31 ≤ 31) ∧ 31 < 32 := by decide

theorem witness_SigmaFunctionsBitByBit : (1 ≤ 1 ∧ 1 ≤ 31) ∧ (1 ≤ 31 ∧ 31 ≤ 31) ∧ 31 < 32 := by decide

theorem witness_ChoiceAndMajorityBitByBit : 31 < 32 := by decide

theorem witness_BlockCountIsLeastAndInRange : 0 < 2 ^ 61 ∧ 2 ^ 61 - 1 < 2 ^ 61 ∧ 55 + 9 ≤ 64 * 1 := by decide

theorem witness_PaddingControllerAnswersPm :
    (2 < padded3.len.toNat ∧ Memory.read padded3.source 2 = some 0x63#8) ∧ 3 = padded3.len.toNat ∧
    (padded3.len.toNat < 4 ∧ 55 < 64 * nblk padded3.len.toNat - 8) ∧
    (64 * nblk padded3.len.toNat - 8 ≤ 56 ∧ 63 < 64 * nblk padded3.len.toNat) := by decide

theorem witness_PaddingControllerFollowsTheLayout :
    abc.length = padded3.len.toNat ∧
    (∀ i, i < padded3.len.toNat → Memory.read padded3.source i = some (abc.getD i 0)) ∧
    63 < 64 * nblk abc.length := by decide

theorem witness_ObservationShowsOutputsAndChangesNoRegister :
    (scripted (at' 2#3 0 0 3 abc) [.observe]).script = [.observe] ∧
    (scripted (at' 4#3 0 65 3 abc) [.readDigest]).script = [.readDigest] ∧
    done (scripted (at' 4#3 0 65 3 abc) [.readDigest]) = true := by decide

theorem witness_ResetEstablishesInitFromAnyState : (scripted padded3 [.reset]).script = [.reset] := by decide

theorem witness_QuiescentPhaseIdles :
    State.reset.phase = Phase.init ∧ State.reset.script = [] ∧ (at' 4#3 0 65 3 abc).phase = Phase.finalized := by decide

theorem witness_UnreachableSequencerWordIsStuck :
    5 ≤ (at' 5#3 0 0 3 abc).phase.toNat ∧
    ((at' 2#3 0 65 3 abc).phase = Phase.scheduling ∧ 65 ≤ (at' 2#3 0 65 3 abc).t.toNat) ∧
    ((at' 3#3 0 66 3 abc).phase = Phase.compressing ∧ 66 ≤ (at' 3#3 0 66 3 abc).t.toNat) ∧
    (at' 3#3 0 66 3 abc).script = [] ∧ (scripted (at' 3#3 0 66 3 abc) [.command 0#64]).script = [.command 0#64] ∧
    (scripted (at' 3#3 0 66 3 abc) [.reset]).script = [.reset] := by decide

theorem witness_ResetAbandonsAHeldStep :
    (scripted (at' 2#3 0 0 3 [0x61#8]) [.pass, .reset]).script = [.pass, .reset] ∧
    engineStep (scripted (at' 2#3 0 0 3 [0x61#8]) [.pass, .reset]) = .fault (.sourceSilent 1) ∧
    engineStep (scripted (at' 5#3 0 0 3 []) [.pass, .reset]) = .fault .stuckSequencer := ⟨by decide, rfl, rfl⟩

theorem witness_SupplyChangesOneAnswerOnly :
    (scripted padded3 [.supply 0#61 7#8]).script = [.supply 0#61 7#8] ∧
    (scripted padded3 [.withdraw 0#61]).script = [.withdraw 0#61] ∧ 1 ≠ (0#61).toNat := by decide

theorem witness_HostStopsOnInputsTheBlockCannotHash :
    2 ^ 61 ≤ 2 ^ 61 ∧ (4 < 2 ^ 61 ∧ 3 < 4 ∧ Memory.read padded3.source 3 = none) ∧
    (3 < 2 ^ 61 ∧ ∀ i, i < 3 → (Memory.read padded3.source i).isSome = true) := by decide

theorem witness_RuleKeepingHostLeavesTheUnreadMessageAlone :
    ∃ t, hostKeepsRules (scripted (at' 2#3 0 0 3 abc) [.supply 9#61 0#8]) = true ∧
      ready (scripted (at' 2#3 0 0 3 abc) [.supply 9#61 0#8]) = false ∧
      step (scripted (at' 2#3 0 0 3 abc) [.supply 9#61 0#8]) = .next t ∧
      readBelow (scripted (at' 2#3 0 0 3 abc) [.supply 9#61 0#8]) ≤ 0 ∧
      0 < (scripted (at' 2#3 0 0 3 abc) [.supply 9#61 0#8]).len.toNat ∧
      Memory.read (scripted (at' 2#3 0 0 3 abc) [.supply 9#61 0#8]).source 0 = some 0x61#8 :=
  ⟨_, by decide, by decide, rfl, by decide, by decide, by decide⟩

theorem witness_EveryStepKeepsTheInvariant : Invariant padded3 ∧ ∃ t, step padded3 = .next t := ⟨by decide, _, rfl⟩

theorem witness_TheOnlyStopIsASilentSource :
    Invariant padded3 ∧ Invariant (at' 2#3 0 0 3 []) := by decide

theorem witness_PhaseChangesFollowTheStateMachine :
    ∃ t, step padded3 = .next t ∧ t.phase ≠ padded3.phase := ⟨_, rfl, by decide⟩

/-- A step of `s` that is no reset and changes what `f` looks at. -/
def Changes {α : Type} (s : State) (f : State → α) : Prop := ∃ t, step s = .next t ∧ ¬Resetting s ∧ f t ≠ f s

theorem witness_RegistersChangeOnlyByTheirWriters :
    Changes (at' 3#3 0 64 3 abc) (·.h) ∧ Changes (at' 2#3 0 0 3 abc) (·.w) ∧ Changes (at' 2#3 0 64 3 abc) (·.v) ∧
    Changes (at' 3#3 0 65 3 abc) (·.digest) ∧
    Changes (scripted State.reset [.command 0x4000000000000003#64]) (·.len) ∧ Changes padded3 (·.phase) ∧
    Changes (at' 3#3 0 65 56 abc) (·.blk) ∧ Changes (at' 1#3 0 5 3 abc) (·.t) ∧
    Changes (at' 2#3 0 0 3 abc) (·.transfers) ∧ Changes (scripted (at' 2#3 0 0 3 [0x61#8]) [.pass]) (·.held) :=
  ⟨⟨_, rfl, by decide, by decide⟩, ⟨_, rfl, by decide, by decide⟩, ⟨_, rfl, by decide, by decide⟩,
    ⟨_, rfl, by decide, by decide⟩, ⟨_, rfl, by decide, by decide⟩, ⟨_, rfl, by decide, by decide⟩,
    ⟨_, rfl, by decide, by decide⟩, ⟨_, rfl, by decide, by decide⟩, ⟨_, rfl, by decide, by decide⟩,
    ⟨_, rfl, by decide, by decide⟩⟩

theorem witness_FinalizedStateIsRetained :
    (∃ t, (at' 4#3 0 65 3 abc).phase = Phase.finalized ∧ step (at' 4#3 0 65 3 abc) = .next t ∧
      ¬Resetting (at' 4#3 0 65 3 abc) ∧ running (at' 4#3 0 65 3 abc) ≠ some .init) ∧
    ∃ t, step (scripted (at' 4#3 0 65 3 abc) [.command 0x2000000000000000#64]) = .next t ∧
      running (scripted (at' 4#3 0 65 3 abc) [.command 0x2000000000000000#64]) = some .init :=
  ⟨⟨_, by decide, rfl, by decide, by decide⟩, _, rfl, by decide⟩

theorem witness_SequencerTrajectoryIsFixedByTheLength :
    padded3.phase = Phase.paddingDone ∧ padded3.script = [] ∧ padded3.held = [] ∧
    (∀ i, i < padded3.len.toNat → Memory.read padded3.source i = some (abcOracle i)) ∧
    0 < nblk padded3.len.toNat ∧ 64 < 131 ∧ 130 < 131 := by decide

theorem witness_SchedulingStepsComputeTheSchedule :
    (at' 2#3 0 0 3 abc).phase = Phase.scheduling ∧ (at' 2#3 0 0 3 abc).t = 0#7 ∧ (at' 2#3 0 0 3 abc).script = [] ∧
    (∀ i, i < (at' 2#3 0 0 3 abc).len.toNat → Memory.read (at' 2#3 0 0 3 abc).source i = some (abcOracle i)) ∧
    (at' 2#3 0 0 3 abc).held = [] ∧
    (at' 2#3 0 0 3 abc).blk.toNat < nblk (at' 2#3 0 0 3 abc).len.toNat := by decide

theorem witness_CompressingStepsComputeTheBlockFunction :
    (at' 2#3 0 64 3 abc).phase = Phase.scheduling ∧ (at' 2#3 0 64 3 abc).t = 64#7 ∧
    (at' 2#3 0 64 3 abc).script = [] := by decide

theorem witness_ComputationEndsWithTheHash :
    padded3.phase = Phase.paddingDone ∧ padded3.h = iv ∧ padded3.script = [] ∧ padded3.held = [] ∧
    (∀ i, i < padded3.len.toNat → Memory.read padded3.source i = some (abcOracle i)) ∧
    ∃ u, Host.Core.run Sys2Proof.core 0 padded3 = .next u :=
  ⟨by decide, by decide, by decide, by decide, by decide, _, rfl⟩

theorem witness_HashScriptShowsTheHashOfTheMessage :
    ∃ l, hashScript (at' 4#3 0 65 9 abc).source 3 = .ok l ∧
      (let s : State := { at' 4#3 0 65 9 abc with script := l }
       ready s = true ∧ s.held = [] ∧ hashScript s.source 3 = .ok s.script ∧
        ∀ i, i < 3 → Memory.read s.source i = some (abcOracle i)) :=
  ⟨_, rfl, by decide, by decide, rfl, by decide⟩

theorem witness_ControlDoesNotDependOnMessageBytes :
    (∃ t t', step (at' 2#3 0 0 3 abc) = .next t ∧ step (at' 2#3 0 0 3 [1#8, 2#8, 3#8]) = .next t') ∧
    (at' 2#3 0 0 3 [1#8, 2#8, 3#8]).script = (at' 2#3 0 0 3 abc).script ∧
    (at' 2#3 0 0 3 [1#8, 2#8, 3#8]).held.length = (at' 2#3 0 0 3 abc).held.length ∧ ¬Resetting (at' 2#3 0 0 3 abc) ∧
    ∀ i, (Memory.read (at' 2#3 0 0 3 [1#8, 2#8, 3#8]).source i).isSome = (Memory.read (at' 2#3 0 0 3 abc).source i).isSome := by
  refine ⟨⟨_, _, rfl, rfl⟩, by decide, by decide, by decide, fun i => ?_⟩
  simp only [at', abc, List.zipIdx_cons, List.zipIdx_nil, List.map_cons, List.map_nil, Memory.read]
  by_cases h0 : 0 = i <;> by_cases h1 : 1 = i <;> by_cases h2 : 2 = i <;> simp [h0, h1, h2]

theorem witness_SequencerWordSelectsTheRowsOperation :
    ∃ t, decodeSeq (mkSeqWord (last State.reset) State.reset.phase State.reset.t) = .error .quiescentPhase ∧
      engineStep State.reset = .next t := ⟨_, by decide, rfl⟩

end Sys2Proof.Tests
end

section
/-! The two decoders by the fields of their words: the command word by OP (R81 to R83), and the sequencer word by the columns
LAST, PHASE and T of the rows of R87. -/

namespace Sys2Proof

open Sys2Proof.Machine

/-! ### The command word -/

/-- OP and ARG make up the whole command word (R81). -/
@[simp] theorem mkCmdWord_cmdOp_cmdArg (w : CmdWord) : mkCmdWord (cmdOp w) (cmdArg w) = w := by
  have hjoin := BitVec.extractLsb'_append_extractLsb'_eq_extractLsb' (x := w) (start₁ := 0) (len₁ := 61) (start₂ := 61)
    (len₂ := 3) rfl
  exact hjoin.trans BitVec.extractLsb'_eq_self

/-- The mask of the command rows keeps OP and clears ARG. -/
theorem mkCmdWord_and_cmdMask (op : BitVec 3) (arg : MsgLen) : mkCmdWord op arg &&& cmdMask = mkCmdWord op 0#61 := by
  have hmask : cmdMask = mkCmdWord (BitVec.allOnes 3) 0#61 := by decide
  rw [hmask, mkCmdWord, mkCmdWord, BitVec.and_append, BitVec.and_allOnes, BitVec.and_zero, mkCmdWord]

/-- The match-and-mask form of a command row (R82) is a condition on OP alone. -/
theorem and_cmdMask_eq_iff (w : CmdWord) (op : BitVec 3) : w &&& cmdMask = mkCmdWord op 0#61 ↔ cmdOp w = op := by
  have hmask : w &&& cmdMask = mkCmdWord (cmdOp w) 0#61 := by
    rw [← mkCmdWord_and_cmdMask _ (cmdArg w), mkCmdWord_cmdOp_cmdArg]
  rw [hmask]
  constructor
  · intro h
    simpa using congrArg cmdOp h
  · exact fun h => by rw [h]

/-- Command decoding by OP (R82). -/
theorem decodeCmd_eq (w : CmdWord) : decodeCmd w =
    if cmdOp w = 0b001#3 then .ok .init
    else if cmdOp w = 0b010#3 then .ok (.start (cmdArg w).toNat)
    else .error .reservedOpcode := by
  have hinit : w &&& cmdMask = 0x2000000000000000#64 ↔ cmdOp w = 0b001#3 := and_cmdMask_eq_iff w 0b001#3
  have hstart : w &&& cmdMask = 0x4000000000000000#64 ↔ cmdOp w = 0b010#3 := and_cmdMask_eq_iff w 0b010#3
  simp only [decodeCmd, hinit, hstart]

/-- Settles O2: the command rows of R82 test OP alone, and OP and ARG are all the bits of the word. -/
theorem commandWordDecodesByOpcode : Obligations.CommandWordDecodesByOpcode :=
  ⟨decodeCmd_eq, mkCmdWord_cmdOp_cmdArg⟩

/-! ### The rows of R87 by their columns -/

/-- The row of R87 that reads LAST where `lo` gives a value, asks for PHASE `p`, and for T in the `b`-th run of `2 ^ k` step
numbers. -/
def columnRow (op : Instr) (lo : Option Bool) (p : PhaseCode) (k b : Nat) : SeqRow :=
  ⟨op, mkSeqWord (lo.getD false) p (BitVec.ofNat 7 (b * 2 ^ k)), mkSeqWord lo.isSome 0b111#3 (BitVec.allOnes 7 <<< k)⟩

/-- R87's table, row by row, in its columns. -/
theorem seqTable_eq_columnRows : seqTable =
    [ columnRow .begin none 1#3 7 0,
      columnRow .ldw none 2#3 4 0,
      columnRow .exp none 2#3 4 1,
      columnRow .exp none 2#3 5 1,
      columnRow .seed none 2#3 0 64,
      columnRow .rnd none 3#3 6 0,
      columnRow .fold none 3#3 0 64,
      columnRow .next (some false) 3#3 0 65,
      columnRow .ser (some true) 3#3 0 65 ] := by decide

theorem mkSeqWord_and_mkSeqWord (l l' : Bool) (p p' : PhaseCode) (t t' : StepIdx) :
    mkSeqWord l p t &&& mkSeqWord l' p' t' = mkSeqWord (l && l') (p &&& p') (t &&& t') := by
  refine BitVec.and_append.trans ?_
  rw [BitVec.and_append, BitVec.ofBool_and_ofBool, mkSeqWord]

theorem mkSeqWord_eq_iff {l l' : Bool} {p p' : PhaseCode} {t t' : StepIdx} :
    mkSeqWord l p t = mkSeqWord l' p' t' ↔ l = l' ∧ p = p' ∧ t = t' := by
  constructor
  · intro h
    exact ⟨by simpa using congrArg seqLast h, by simpa using congrArg seqPhase h, by simpa using congrArg seqT h⟩
  · rintro ⟨rfl, rfl, rfl⟩
    rfl

/-- Masking off the `k` low bits of T leaves the number of its run of `2 ^ k` steps. -/
theorem and_highMask_eq_iff (t : StepIdx) {k b : Nat} (hb : b * 2 ^ k < 128) :
    t &&& BitVec.allOnes 7 <<< k = BitVec.ofNat 7 (b * 2 ^ k) ↔ t.toNat / 2 ^ k = b := by
  have hle : t.toNat / 2 ^ k * 2 ^ k < 128 := (Nat.div_mul_le_self _ _).trans_lt t.isLt
  rw [← BitVec.shiftLeft_ushiftRight, ← BitVec.toNat_inj, BitVec.toNat_shiftLeft, BitVec.toNat_ushiftRight,
    BitVec.toNat_ofNat, Nat.shiftLeft_eq, Nat.shiftRight_eq_div_pow, Nat.mod_eq_of_lt hle, Nat.mod_eq_of_lt hb]
  exact Nat.mul_left_inj (Nat.two_pow_pos k).ne'

/-- A word selects a row exactly when its fields are in the row's columns. -/
theorem columnRow_selects_iff {op : Instr} {lo : Option Bool} {p q : PhaseCode} {k b : Nat} {l : Bool} {t : StepIdx}
    (hb : b * 2 ^ k < 128) :
    (columnRow op lo p k b).selects (mkSeqWord l q t) = true ↔ (∀ v, lo = some v → l = v) ∧ q = p ∧ t.toNat / 2 ^ k = b := by
  have hlast : (l && lo.isSome) = lo.getD false ↔ ∀ v, lo = some v → l = v := by cases lo <;> simp
  have hphase : q &&& 0b111#3 = q := BitVec.and_allOnes
  rw [SeqRow.selects, beq_iff_eq, columnRow, mkSeqWord_and_mkSeqWord, mkSeqWord_eq_iff, hlast, hphase,
    and_highMask_eq_iff t hb]

/-! ### No word matches two rows -/

/-- Two rows whose patterns differ in a bit that both masks read. -/
def SeqRow.Clashes (r r' : SeqRow) : Prop := r.pattern &&& r'.mask ≠ r'.pattern &&& r.mask

theorem SeqRow.Clashes.not_both {r r' : SeqRow} (hc : r.Clashes r') {w : SeqWord} (h : r.selects w = true)
    (h' : r'.selects w = true) : False := by
  have hw : w &&& r.mask = r.pattern := eq_of_beq h
  have hw' : w &&& r'.mask = r'.pattern := eq_of_beq h'
  refine hc ?_
  rw [← hw, ← hw', BitVec.and_assoc, BitVec.and_assoc, BitVec.and_comm r.mask]

theorem seqTable_pairwise_clashes : seqTable.Pairwise SeqRow.Clashes := by
  unfold SeqRow.Clashes
  decide

/-- No word matches two rows of R87. -/
theorem seqTable_filter_selects_length_le_one (w : SeqWord) : (seqTable.filter fun r => r.selects w).length ≤ 1 := by
  have hpair := seqTable_pairwise_clashes.filter (fun r => r.selects w)
  have hsel : ∀ r ∈ seqTable.filter (fun r => r.selects w), r.selects w = true := fun r hr => (List.mem_filter.mp hr).2
  generalize seqTable.filter (fun r => r.selects w) = rows at hpair hsel
  match rows with
  | [] => exact Nat.zero_le 1
  | [_] => exact le_rfl
  | r :: r' :: rest =>
    have hclash : r.Clashes r' := List.rel_of_pairwise_cons hpair List.mem_cons_self
    exact (hclash.not_both (hsel r (by simp)) (hsel r' (by simp))).elim

/-! ### Selection -/

/-- Any row that a word selects is the row the decoder finds, since no other row matches. -/
theorem decodeSeq_of_selects {r : SeqRow} {w : SeqWord} (hr : r ∈ seqTable) (h : r.selects w = true) :
    decodeSeq w = .ok r.op := by
  have hmem : r ∈ seqTable.filter fun r => r.selects w := List.mem_filter.mpr ⟨hr, h⟩
  have hone : (seqTable.filter fun r => r.selects w).length = 1 :=
    le_antisymm (seqTable_filter_selects_length_le_one w) (List.length_pos_of_mem hmem)
  obtain ⟨r', hrows⟩ := List.length_eq_one_iff.mp hone
  have hfind : seqTable.find? (fun r => r.selects w) = some r := by
    rw [hrows, List.mem_singleton] at hmem
    rw [← List.head?_filter, hrows, hmem, List.head?_cons]
  rw [decodeSeq, hfind]

/-- The row of the table in these columns is the one the decoder reads. -/
theorem decodeSeq_of_columns {op : Instr} {p : PhaseCode} {l : Bool} {t : StepIdx} (lo : Option Bool) (k b : Nat)
    (hrow : columnRow op lo p k b ∈ seqTable) (hb : b * 2 ^ k < 128) (hl : ∀ v, lo = some v → l = v)
    (ht : t.toNat / 2 ^ k = b) : decodeSeq (mkSeqWord l p t) = .ok op :=
  decodeSeq_of_selects hrow ((columnRow_selects_iff hb).mpr ⟨hl, rfl, ht⟩)

/-- A word with no row is quiescent or unreachable by its PHASE (R89, R91). -/
theorem decodeSeq_of_no_row {w : SeqWord} (h : ∀ r ∈ seqTable, r.selects w = false) :
    decodeSeq w = if seqPhase w = Phase.init ∨ seqPhase w = Phase.finalized then .error .quiescentPhase
      else .error .unreachableWord := by
  have hfind : seqTable.find? (fun r => r.selects w) = none := List.find?_eq_none.mpr fun r hr => by simp [h r hr]
  rw [decodeSeq, hfind]

/-- Outside PHASE 1, T up to 64 in PHASE 2 and T up to 65 in PHASE 3, no row has the word. -/
theorem seqTable_selects_eq_false {p : PhaseCode} {t : StepIdx} (l : Bool) (hp1 : p ≠ 1#3) (hp2 : p = 2#3 → 64 < t.toNat)
    (hp3 : p = 3#3 → 65 < t.toNat) : ∀ r ∈ seqTable, r.selects (mkSeqWord l p t) = false := by
  have htlt : t.toNat < 128 := t.isLt
  simp (disch := decide) only [seqTable_eq_columnRows, List.forall_mem_cons, ← Bool.not_eq_true, columnRow_selects_iff]
  grind

/-- PHASE 0 and 4 have no row: the engine has no step (R89). -/
theorem decodeSeq_of_quiescent {p : PhaseCode} (l : Bool) (t : StepIdx) (hp : p = 0#3 ∨ p = 4#3) :
    decodeSeq (mkSeqWord l p t) = .error .quiescentPhase := by
  have hnone : ∀ r ∈ seqTable, r.selects (mkSeqWord l p t) = false := by
    rcases hp with rfl | rfl <;> exact seqTable_selects_eq_false l (by decide) nofun nofun
  rw [decodeSeq_of_no_row hnone, seqPhase_mkSeqWord, if_pos hp]

/-- A busy or unused PHASE with T past its rows is unreachable (R91). -/
theorem decodeSeq_of_unreachable {p : PhaseCode} {t : StepIdx} (l : Bool) (hp : ¬(p = 0#3 ∨ p = 4#3)) (hp1 : p ≠ 1#3)
    (hp2 : p = 2#3 → 64 < t.toNat) (hp3 : p = 3#3 → 65 < t.toNat) :
    decodeSeq (mkSeqWord l p t) = .error .unreachableWord := by
  rw [decodeSeq_of_no_row (seqTable_selects_eq_false l hp1 hp2 hp3), seqPhase_mkSeqWord, if_neg hp]

/-- Micro-operation selection by the columns of R87; a word in no row's columns is quiescent or unreachable by PHASE. -/
theorem decodeSeq_mkSeqWord (l : Bool) (p : PhaseCode) (t : StepIdx) : decodeSeq (mkSeqWord l p t) =
    if p = 1#3 then .ok .begin
    else if p = 2#3 ∧ t.toNat ≤ 15 then .ok .ldw
    else if p = 2#3 ∧ t.toNat ≤ 63 then .ok .exp
    else if p = 2#3 ∧ t.toNat = 64 then .ok .seed
    else if p = 3#3 ∧ t.toNat ≤ 63 then .ok .rnd
    else if p = 3#3 ∧ t.toNat = 64 then .ok .fold
    else if p = 3#3 ∧ t.toNat = 65 ∧ l = false then .ok .next
    else if p = 3#3 ∧ t.toNat = 65 ∧ l = true then .ok .ser
    else if p = 0#3 ∨ p = 4#3 then .error .quiescentPhase
    else .error .unreachableWord := by
  have htlt : t.toNat < 128 := t.isLt
  split_ifs with hbegin hldw hexp hseed hrnd hfold hnext hser hquiet
  · subst hbegin
    exact decodeSeq_of_columns none 7 0 (by decide) (by decide) nofun (by omega)
  · obtain ⟨rfl, ht⟩ := hldw
    exact decodeSeq_of_columns none 4 0 (by decide) (by decide) nofun (by omega)
  · obtain ⟨rfl, ht⟩ := hexp
    have hge : 15 < t.toNat := by simpa using hldw
    by_cases hlow : t.toNat ≤ 31
    · exact decodeSeq_of_columns none 4 1 (by decide) (by decide) nofun (by omega)
    · exact decodeSeq_of_columns none 5 1 (by decide) (by decide) nofun (by omega)
  · obtain ⟨rfl, ht⟩ := hseed
    exact decodeSeq_of_columns none 0 64 (by decide) (by decide) nofun (by omega)
  · obtain ⟨rfl, ht⟩ := hrnd
    exact decodeSeq_of_columns none 6 0 (by decide) (by decide) nofun (by omega)
  · obtain ⟨rfl, ht⟩ := hfold
    exact decodeSeq_of_columns none 0 64 (by decide) (by decide) nofun (by omega)
  · obtain ⟨rfl, ht, rfl⟩ := hnext
    exact decodeSeq_of_columns (some false) 0 65 (by decide) (by decide) (by simp) (by omega)
  · obtain ⟨rfl, ht, rfl⟩ := hser
    exact decodeSeq_of_columns (some true) 0 65 (by decide) (by decide) (by simp) (by omega)
  · exact decodeSeq_of_quiescent l t hquiet
  · have hsched : p = 2#3 → 64 < t.toNat := by
      rintro rfl
      simp only [true_and] at hexp hseed
      omega
    have hcompr : p = 3#3 → 65 < t.toNat := by
      rintro rfl
      cases l <;> simp only [true_and, and_true] at hrnd hfold hnext hser <;> omega
    exact decodeSeq_of_unreachable l hquiet hbegin hsched hcompr

/-- Settles O3: the rows of R87 read the word's fields by columns, two rows always clash in a bit both read, and where the
decoder gives no micro-operation the engine's step is the idle one. -/
theorem sequencerWordSelectsTheRowsOperation : Obligations.SequencerWordSelectsTheRowsOperation := by
  refine ⟨decodeSeq_mkSeqWord, seqTable_filter_selects_length_le_one, fun s t r hnone hstep => ?_⟩
  rcases engineStep_next hstep with ⟨i, hi, -⟩ | ⟨-, hidle⟩
  · exact absurd (hi.symm.trans hnone) nofun
  · exact hidle

end Sys2Proof
end

section
/-! The word functions of R103 to R111 by the bits of their operands: one rule each for `rotr` and `shr`, and from them the
XOR functions of the schedule and of the round. -/

namespace Sys2Proof

open Sys2Proof.Machine

/-! ### Rotation and shift -/

/-- Within its amounts, `rotr` is the library's rotation. -/
theorem rotr_eq_rotateRight (x : Word) {n : Nat} (hn : 1 ≤ n ∧ n ≤ 31) : rotr x n hn = x.rotateRight n := by
  rw [BitVec.rotateRight_def, Nat.mod_eq_of_lt (by omega), rotr]

/-- Bit i of a rotation by n is bit (i + n) mod 32 of the operand (R103). -/
theorem getLsbD_rotr (x : Word) {n : Nat} (hn : 1 ≤ n ∧ n ≤ 31) {i : Nat} (hi : i < 32) :
    (rotr x n hn).getLsbD i = x.getLsbD ((i + n) % 32) := by
  rw [rotr_eq_rotateRight, BitVec.getLsbD_rotateRight_of_lt (by omega), Bool.cond_decide]
  by_cases hlow : i < 32 - n
  · have hidx : (i + n) % 32 = n + i := by omega
    rw [hidx, if_pos hlow]
  · have hwrap : (i + n) % 32 = i - (32 - n) := by omega
    rw [hwrap, if_neg hlow, decide_eq_true hi, Bool.true_and]

/-- A shift by n divides by 2^n (R104). -/
theorem toNat_shr (x : Word) {n : Nat} (hn : 1 ≤ n ∧ n ≤ 31) : (shr x n hn).toNat = x.toNat / 2 ^ n := by
  rw [shr, BitVec.toNat_ushiftRight, Nat.shiftRight_eq_div_pow]

/-- Bit i of a shift by n is bit i + n of the operand, and 0 above its top (R104). -/
theorem getLsbD_shr (x : Word) {n : Nat} (hn : 1 ≤ n ∧ n ≤ 31) (i : Nat) :
    (shr x n hn).getLsbD i = (decide (i + n < 32) && x.getLsbD (i + n)) := by
  rw [shr, BitVec.getLsbD_ushiftRight, Nat.add_comm n i]
  by_cases htop : i + n < 32
  · rw [decide_eq_true htop, Bool.true_and]
  · rw [decide_eq_false htop, Bool.false_and, BitVec.getLsbD_of_ge _ _ (Nat.le_of_not_lt htop)]

/-- Settles O25: word addition is `BitVec`'s, and rotation moves each bit around the word. -/
theorem wordAdditionWrapsAndRotationIsCircular : Obligations.WordAdditionWrapsAndRotationIsCircular :=
  ⟨BitVec.toNat_add, fun x _ hn _ hi => getLsbD_rotr x hn hi⟩

/-! ### The functions of the schedule and of the round -/

/-- Settles O26: each of the four functions is an XOR of rotations and a shift, read at bit i by their own rules. -/
theorem sigmaFunctionsBitByBit : Obligations.SigmaFunctionsBitByBit := by
  refine ⟨fun x _ hn => toNat_shr x hn, fun x i hi => ?_⟩
  simp only [sigma0, sigma1, bigS0, bigS1, BitVec.getLsbD_xor, getLsbD_rotr, getLsbD_shr, hi, and_self]

/-- Each bit of x chooses the bit of y or of z (R110): at most one of the two AND terms is 1. -/
theorem getLsbD_ch (x y z : Word) {i : Nat} (hi : i < 32) :
    (ch x y z).getLsbD i = if x.getLsbD i then y.getLsbD i else z.getLsbD i := by
  have hbits : (ch x y z).getLsbD i = ((x.getLsbD i && y.getLsbD i) ^^ (!x.getLsbD i && z.getLsbD i)) := by
    rw [ch, BitVec.getLsbD_xor, BitVec.getLsbD_and, BitVec.getLsbD_and, BitVec.getLsbD_not, decide_eq_true hi,
      Bool.true_and]
  rw [hbits]
  cases x.getLsbD i <;> simp

/-- The XOR of the three pairwise ANDs of R111 is 1 when at least two of the bits are. -/
theorem xor_pairwise_and_eq_majority : ∀ a b c : Bool,
    ((a && b) ^^ (a && c) ^^ (b && c)) = decide (2 ≤ a.toNat + b.toNat + c.toNat) := by decide

/-- Each result bit of `maj` is the majority of the three operand bits (R111). -/
theorem getLsbD_maj (x y z : Word) (i : Nat) : (maj x y z).getLsbD i =
    decide (2 ≤ (x.getLsbD i).toNat + (y.getLsbD i).toNat + (z.getLsbD i).toNat) := by
  rw [← xor_pairwise_and_eq_majority]
  simp only [maj, BitVec.getLsbD_xor, BitVec.getLsbD_and]

/-- Settles O27: bit i of `ch` and of `maj` depends on the operands' bits i alone. -/
theorem choiceAndMajorityBitByBit : Obligations.ChoiceAndMajorityBitByBit :=
  fun x y z i hi => ⟨getLsbD_ch x y z hi, getLsbD_maj x y z i⟩

end Sys2Proof
end

section
/-! The padding controller (spec/41_padding.md R121 to R126): the room that NBLK leaves, the length field by its bytes, one rule
for PM(i) in each of its four regions, and the padded message as the list of them. -/

namespace Sys2Proof

open Sys2Proof.Machine Sys2Proof.Safety

/-! ### The blocks of the padded message -/

/-- The blocks have room for the message, the byte 0x80 and the length field (R121). -/
theorem add_nine_le_blocks (len : Nat) : len + 9 ≤ 64 * nblk len := by
  unfold nblk
  omega

/-- The zeros fill what the message, 0x80 and the length field leave of the blocks (R122). -/
theorem add_one_add_zpad (len : Nat) : len + 1 + zpad len = 64 * nblk len - 8 := by
  have hroom := add_nine_le_blocks len
  unfold zpad
  omega

/-! ### The length field -/

/-- BITLEN is eight times the length, without loss (R125). -/
theorem toNat_bitLen (len : MsgLen) : (bitLen len).toNat = 8 * len.toNat := by
  have happend : (bitLen len).toNat = len.toNat <<< 3 ||| (0b000#3).toNat := BitVec.toNat_append len 0b000#3
  rw [happend, BitVec.toNat_zero, Nat.or_zero, Nat.shiftLeft_eq, Nat.mul_comm]

/-- Byte k of the length field is the digit of weight 256^(7 − k) of the bit length (R125). -/
theorem lengthField_eq (len : MsgLen) (k : Fin 8) :
    lengthField len k = BitVec.ofNat 8 (8 * len.toNat / 256 ^ (7 - k.val)) := by
  have hweight : 2 ^ (56 - 8 * k.val) = 256 ^ (7 - k.val) := by
    rw [show 256 = 2 ^ 8 from rfl, ← Nat.pow_mul, Nat.mul_sub]
  rw [lengthField, ser64, ← hweight, BitVec.extractLsb', toNat_bitLen, Nat.shiftRight_eq_div_pow]

/-! ### PM(i) by region -/

/-- A message byte comes through the port. -/
theorem pmByte_of_message {s : State} {i : Nat} (hi : i < s.len.toNat) : pmByte s i = memRead s i := if_pos hi

/-- The byte after the message is 0x80. -/
theorem pmByte_at_len (s : State) : pmByte s s.len.toNat = .next (0x80#8, s) := by
  rw [pmByte, if_neg (lt_irrefl _), if_pos rfl]

/-- Between 0x80 and the length field there are zeros. -/
theorem pmByte_of_zero_region {s : State} {i : Nat} (hlen : s.len.toNat < i) (hi : i < 64 * nblk s.len.toNat - 8) :
    pmByte s i = .next (0x00#8, s) := by
  rw [pmByte, if_neg hlen.not_gt, if_neg hlen.ne', if_pos hi]

/-- The last eight bytes are the length field, with no read. -/
theorem pmByte_of_length_field {s : State} {i : Nat} (hlo : 64 * nblk s.len.toNat - 8 ≤ i)
    (hhi : i < 64 * nblk s.len.toNat) :
    pmByte s i = .next (BitVec.ofNat 8 (8 * s.len.toNat / 256 ^ (64 * nblk s.len.toNat - 1 - i)), s) := by
  have hroom := add_nine_le_blocks s.len.toNat
  have hlen : s.len.toNat < i := by omega
  have hk : i - (64 * nblk s.len.toNat - 8) < 8 := by omega
  have hweight : 7 - (i - (64 * nblk s.len.toNat - 8)) = 64 * nblk s.len.toNat - 1 - i := by omega
  rw [pmByte, if_neg hlen.not_gt, if_neg hlen.ne', if_neg hlo.not_gt, dif_pos hk, lengthField_eq, hweight]

/-- Settles O30: each case is the rule of its region. -/
theorem paddingControllerAnswersPm : Obligations.PaddingControllerAnswersPm := by
  refine fun s i => ⟨fun hi b hb => ⟨s.held ++ [b], ?_⟩, ?_, pmByte_of_zero_region, pmByte_of_length_field⟩
  · rw [pmByte_of_message hi, memRead_of_answer hb]
  · rintro rfl
    exact pmByte_at_len s

/-! ### PM(i) as a function of the message -/

theorem reads_one_of_lt {len i : Nat} (m : Nat → Byte) (hi : i < len) :
    Reference.reads len m i 1 = [⟨BitVec.ofNat 61 i, m i⟩] := by
  simp [Reference.reads, hi]

theorem reads_one_of_le {len i : Nat} (m : Nat → Byte) (hi : len ≤ i) : Reference.reads len m i 1 = [] := by
  simp [Reference.reads, hi]

/-- Inside the padded message, the padding controller answers the reference's PM(i), and makes the read of address i where i is
below LEN (R126). -/
theorem pmByte_eq_pm {s : State} {m : Nat → Byte} {i : Nat}
    (hsource : i < s.len.toNat → Memory.read s.source i = some (m i)) (hi : i < 64 * nblk s.len.toNat) :
    pmByte s i = .next (Reference.pm s.len.toNat m i, s.withReads (Reference.reads s.len.toNat m i 1)) := by
  unfold Reference.pm
  split_ifs with hmsg hend hzero
  · rw [pmByte_of_message hmsg, memRead_of_answer (hsource hmsg), reads_one_of_lt m hmsg]
    rfl
  all_goals rw [reads_one_of_le m (Nat.le_of_not_lt hmsg), State.withReads_nil]
  · rw [hend, pmByte_at_len]
  · exact pmByte_of_zero_region (by omega) hzero
  · exact pmByte_of_length_field (Nat.le_of_not_lt hzero) hi

/-! ### The padded message as a list -/

/-- The regions of R124 fill the blocks exactly. -/
theorem length_padded (m : List Byte) : (Reference.padded m).length = 64 * nblk m.length := by
  have hroom := add_nine_le_blocks m.length
  have hfill := add_one_add_zpad m.length
  simp only [Reference.padded, List.length_append, List.length_singleton, List.length_replicate, List.length_map,
    List.length_range]
  omega

/-- Byte i of the layout of R124 is PM(i) as R126 gives it. -/
theorem getElem?_padded {m : List Byte} {i : Nat} (hi : i < 64 * nblk m.length) :
    (Reference.padded m)[i]? = some (Reference.pm m.length (fun k => m.getD k 0) i) := by
  have hroom := add_nine_le_blocks m.length
  have hfill := add_one_add_zpad m.length
  have hhead : (m ++ [0x80#8]).length = m.length + 1 := List.length_append
  have hbody : (m ++ [0x80#8] ++ List.replicate (zpad m.length) 0x00#8).length = 64 * nblk m.length - 8 := by
    rw [List.length_append, hhead, List.length_replicate, hfill]
  unfold Reference.padded Reference.pm
  split_ifs with hmsg hend hzero
  · rw [List.append_assoc, List.append_assoc, List.getElem?_append_left hmsg]
    simp [hmsg]
  · simp [hend]
  · rw [List.getElem?_append_left (by omega), List.getElem?_append_right (by omega),
      List.getElem?_replicate_of_lt (by omega)]
  · have hweight : 7 - (i - (64 * nblk m.length - 8)) = 64 * nblk m.length - 1 - i := by omega
    rw [List.getElem?_append_right (by omega), hbody, List.getElem?_map, List.getElem?_range (by omega), Option.map_some,
      hweight]

/-- A state that differs by reads made has the same block registers. -/
theorem sameBlock_withReads (s : State) (r : List PortRead) : SameBlock s (s.withReads r) :=
  ⟨rfl, rfl, rfl, rfl, rfl, rfl, rfl, rfl⟩

/-- Settles O31: the controller and the layout both give the reference's PM(i). -/
theorem paddingControllerFollowsTheLayout : Obligations.PaddingControllerFollowsTheLayout := by
  intro s m hlen hsource
  refine ⟨length_padded m, fun i hi => ?_⟩
  have hanswer := pmByte_eq_pm (m := fun k => m.getD k 0) (hsource i) (hlen ▸ hi)
  exact ⟨_, _, hanswer, sameBlock_withReads _ _, hlen ▸ getElem?_padded hi⟩

end Sys2Proof
end

section
/-! The message schedule expander (spec/42_schedule.md R141, R143): the reads an LDW makes byte by byte, whether it begins or was
held, its word and its whole next state; and the next state of EXP. -/

namespace Sys2Proof

open Sys2Proof.Machine Sys2Proof.Safety

/-! ### The step counter -/

/-- T <- T + 1 as a number in the seven bits of T (R34). -/
theorem advance_eq (s : State) : advance s = { s with t := BitVec.ofNat 7 (s.t.toNat + 1) } := by
  rw [BitVec.ofNat_add, BitVec.ofNat_toNat, BitVec.setWidth_eq, advance]

/-- Settles O18: the meaning is enabled, and its recurrence is the one written out. -/
theorem expDerivesOneScheduleWord : Obligations.ExpDerivesOneScheduleWord := by
  intro s h hphase
  rw [exec, execExp, dif_pos ⟨hphase, h⟩, advance_eq, expandedWord]

/-! ### Runs of reads -/

/-- The reads of a run of addresses are those of its first part, then those of the rest (R67). -/
theorem reads_add (len : Nat) (m : Nat → Byte) (a n k : Nat) :
    Reference.reads len m a (n + k) = Reference.reads len m a n ++ Reference.reads len m (a + n) k := by
  simp only [Reference.reads, ← List.range'_append_1, List.filter_append, List.map_append]

theorem length_reads_le (len : Nat) (m : Nat → Byte) (a n : Nat) : (Reference.reads len m a n).length ≤ n := by
  simpa [Reference.reads] using List.length_filter_le (fun i => decide (i < len)) (List.range' a n)

/-! ### The reads of an LDW -/

/-- The reads that an LDW going on from `s` makes for the bytes below `k` of its word: none for the bytes it holds already
(R63). -/
def ldwReads (s : State) (m : Nat → Byte) (k : Nat) : List PortRead :=
  Reference.reads s.len.toNat m (ldwAddress s + s.held.length) (k - s.held.length)

theorem ldwReads_of_le {s : State} (m : Nat → Byte) {k : Nat} (hk : k ≤ s.held.length) : ldwReads s m k = [] := by
  rw [ldwReads, Nat.sub_eq_zero_of_le hk]
  rfl

theorem ldwReads_succ {s : State} (m : Nat → Byte) {k : Nat} (hk : s.held.length ≤ k) :
    ldwReads s m (k + 1) = ldwReads s m k ++ Reference.reads s.len.toNat m (ldwAddress s + k) 1 := by
  rw [ldwReads, Nat.succ_sub hk, Nat.succ_eq_add_one, reads_add, Nat.add_assoc, Nat.add_sub_cancel' hk, ldwReads]

/-- After the reads for the bytes below `k`, byte `k` is not among the bytes held. -/
theorem held_withReads_ldwReads_eq_none {s : State} (m : Nat → Byte) {k : Nat} (hk : s.held.length ≤ k) :
    (s.withReads (ldwReads s m k)).held[k]? = none := by
  have hreads : (ldwReads s m k).length ≤ k - s.held.length := length_reads_le ..
  rw [List.getElem?_eq_none_iff, List.length_append, List.length_map]
  omega

/-! ### The word of an LDW -/

/-- A padding byte is evaluated afresh, whatever the step holds. -/
theorem pmWordByte_of_padding {s : State} {a k : Nat} (hk : s.len.toNat ≤ a + k) : pmWordByte s a k = pmByte s (a + k) := by
  simp [pmWordByte, hk.not_gt]

/-- Byte `k` of LDW's word is the reference's PM byte, and brings the reads made up to byte `k` (R58, R63). -/
theorem pmWordByte_eq_pm {s : State} {m : Nat → Byte} {k : Nat} (hblock : ldwAddress s + k < 64 * nblk s.len.toNat)
    (hanswer : ldwAddress s + k < s.len.toNat → ldwAnswer s k = some (m (ldwAddress s + k))) :
    pmWordByte (s.withReads (ldwReads s m k)) (ldwAddress s) k =
      .next (Reference.pm s.len.toNat m (ldwAddress s + k), s.withReads (ldwReads s m (k + 1))) := by
  by_cases hheld : k < s.held.length
  · rw [ldwReads_of_le m hheld.le, ldwReads_of_le m hheld, State.withReads_nil]
    by_cases hmsg : ldwAddress s + k < s.len.toNat
    · have hbyte : s.held[k]? = some (m (ldwAddress s + k)) := by simpa [ldwAnswer, hheld] using hanswer hmsg
      rw [pmWordByte_of_held hmsg hbyte, Reference.pm, if_pos hmsg]
    · have hpad := Nat.le_of_not_lt hmsg
      rw [pmWordByte_of_padding hpad, pmByte_eq_pm (m := m) (absurd · hmsg) hblock, reads_one_of_le m hpad,
        State.withReads_nil]
  · have hge := Nat.le_of_not_lt hheld
    have hsource : ldwAddress s + k < s.len.toNat →
        Memory.read s.source (ldwAddress s + k) = some (m (ldwAddress s + k)) := by
      simpa [ldwAnswer, List.getElem?_eq_none hge] using hanswer
    rw [pmWordByte_of_not_held (held_withReads_ldwReads_eq_none m hge), ldwReads_succ m hge, ← State.withReads_withReads]
    exact pmByte_eq_pm hsource hblock

/-- Every address of an LDW for a block of the message is inside the padded message. -/
theorem ldwAddress_add_lt {s : State} {k : Nat} (ht : s.t.toNat ≤ 15) (hblk : s.blk.toNat < nblk s.len.toNat)
    (hk : k < 4) : ldwAddress s + k < 64 * nblk s.len.toNat := by
  unfold ldwAddress
  omega

/-- The word an LDW evaluates is the block's word T, and brings the reads it did not have (R141). -/
theorem pmWord_eq_blockWord {s : State} {m : Nat → Byte} (ht : s.t.toNat ≤ 15) (hblk : s.blk.toNat < nblk s.len.toNat)
    (hanswer : ∀ k, k < 4 → ldwAddress s + k < s.len.toNat → ldwAnswer s k = some (m (ldwAddress s + k))) :
    pmWord s (ldwAddress s) =
      .next (Reference.blockWord (Reference.pm s.len.toNat m) s.blk.toNat s.t.toNat, s.withReads (ldwReads s m 4)) := by
  have hbyte : ∀ k, k < 4 → pmWordByte (s.withReads (ldwReads s m k)) (ldwAddress s) k =
      .next (Reference.pm s.len.toNat m (ldwAddress s + k), s.withReads (ldwReads s m (k + 1))) :=
    fun k hk => pmWordByte_eq_pm (ldwAddress_add_lt ht hblk hk) (hanswer k hk)
  have hnone : s.withReads (ldwReads s m 0) = s := by rw [ldwReads_of_le m (Nat.zero_le _), State.withReads_nil]
  have hfirst := hbyte 0 (by decide)
  rw [hnone] at hfirst
  simp only [pmWord, hfirst, hbyte 1 (by decide), hbyte 2 (by decide), hbyte 3 (by decide), andThen_next, Nat.reduceAdd]
  rfl

/-- The whole next state of an LDW, begun or gone on with, whose missing bytes the source answers (R56, R63, R141). -/
theorem exec_ldw_of_answers {s : State} {m : Nat → Byte} (ht : s.t.toNat ≤ 15) (hphase : s.phase = Phase.scheduling)
    (hblk : s.blk.toNat < nblk s.len.toNat)
    (hanswer : ∀ k, k < 4 → ldwAddress s + k < s.len.toNat → ldwAnswer s k = some (m (ldwAddress s + k))) :
    exec .ldw s = .next { s with
      w := s.w.set s.t.toNat (Reference.blockWord (Reference.pm s.len.toNat m) s.blk.toNat s.t.toNat)
      t := BitVec.ofNat 7 (s.t.toNat + 1)
      held := []
      transfers := s.transfers ++ ldwReads s m 4 } := by
  rw [exec, execLdw, dif_pos ⟨hphase, ht⟩, pmWord_eq_blockWord ht hblk hanswer]
  simp only [andThen_next, advance_eq]

/-- Settles O13: an LDW that begins holds no byte, so every answer is the source's and no read is left out. -/
theorem ldwLoadsOneScheduleWord : Obligations.LdwLoadsOneScheduleWord := by
  intro s m ht hheld hphase hblk hsource
  have hanswer : ∀ k, k < 4 → ldwAddress s + k < s.len.toNat → ldwAnswer s k = some (m (ldwAddress s + k)) := by
    simpa [ldwAnswer, ldwAddress, hheld] using hsource
  have hreads : ldwReads s m 4 = Reference.reads s.len.toNat m (64 * s.blk.toNat + 4 * s.t.toNat) 4 := by
    rw [ldwReads, hheld]
    rfl
  rw [exec_ldw_of_answers ht hphase hblk hanswer, hreads, hheld]

end Sys2Proof
end

section
/-! The compression engine (spec/43_compression.md R150 to R153): the whole next state of SEED, RND and FOLD, with the round
written out in the old a .. h and the fold word by word. -/

namespace Sys2Proof

open Sys2Proof.Machine

/-! ### SEED -/

/-- Settles O19: SEED is enabled, and in the phase COMPRESSING that it enters both flags are 0 (R36). -/
theorem seedCopiesTheHashState : Obligations.SeedCopiesTheHashState := by
  intro s hphase ht
  refine ⟨?_, rfl, rfl⟩
  rw [exec, execSeed, if_pos ⟨hphase, ht⟩, setSequencer]

/-! ### RND -/

/-- The round in the names of R151 for the old working variables. -/
theorem compressRound_eq (a b c d e f g h kj wj : Word) :
    compressRound #v[a, b, c, d, e, f, g, h] kj wj =
      #v[h + bigS1 e + ch e f g + kj + wj + (bigS0 a + maj a b c), a, b, c,
        d + (h + bigS1 e + ch e f g + kj + wj), e, f, g] := rfl

/-- The whole next state of RND: the round with the constant and the schedule word of step T. -/
theorem exec_rnd_of_enabled {s : State} (hphase : s.phase = Phase.compressing) (ht : s.t.toNat ≤ 63) :
    exec .rnd s = .next { s with
      v := compressRound s.v kTable[s.t.toNat] s.w[s.t.toNat]
      t := BitVec.ofNat 7 (s.t.toNat + 1) } := by
  rw [exec, execRnd, dif_pos ⟨hphase, ht⟩, advance_eq]

/-- Settles O20: the round of RND's next state, written out in the old a .. h. -/
theorem rndRunsOneRound : Obligations.RndRunsOneRound := by
  rintro s ht a b c d e f g h _ _ _ _ _ _ hphase hv rfl rfl rfl rfl rfl rfl
  rw [exec_rnd_of_enabled hphase ht, hv, compressRound_eq]

/-! ### FOLD -/

/-- Each word of the folded hash state is its own sum modulo 2^32. -/
theorem getElem_foldWords (h v : Vector Word 8) (i : Fin 8) :
    (foldWords h v)[i] = BitVec.ofNat 32 (h[i].toNat + v[i].toNat) := by
  have hsum : (foldWords h v)[i] = h[i] + v[i] := Vector.getElem_ofFn i.isLt
  rw [hsum, BitVec.add_def]

/-- Settles O21: FOLD is enabled, and the fold adds word by word. -/
theorem foldAddsTheWorkingVariables : Obligations.FoldAddsTheWorkingVariables := by
  intro s hphase ht
  refine ⟨foldWords s.h s.v, getElem_foldWords s.h s.v, ?_⟩
  rw [exec, execFold, if_pos ⟨hphase, ht⟩]

end Sys2Proof
end

section
/-! The invariant of the machine (spec/10_state.md R24, R33, R43; spec/44_finalizer.md R166): what it asks of a state of each phase,
and that every meaning, every engine step and every step of the machine keeps it. -/

namespace Sys2Proof

open Sys2Proof.Machine Sys2Proof.Safety

/-! ### The invariant by phase -/

theorem invariant_of_iv {s : State} (hwf : Memory.wf s.source) (hphase : s.phase = Phase.init ∨ s.phase = Phase.paddingDone)
    (hiv : s.h = iv) (hheld : s.held = []) : Invariant s := by
  refine ⟨hwf, ?_, fun _ => hiv, ?_, ?_, ?_, .inl hheld⟩ <;> rcases hphase with hphase | hphase <;> simp [hphase]

theorem invariant_of_scheduling {s : State} (hwf : Memory.wf s.source) (hphase : s.phase = Phase.scheduling)
    (ht : s.t.toNat ≤ 64) (hblk : s.blk.toNat < nblk s.len.toNat) (hiv : s.blk = 0#56 → s.h = iv)
    (hheld : s.held = [] ∨
      (s.t.toNat ≤ 15 ∧ s.held.length ≤ 3 ∧ ldwAddress s + s.held.length < s.len.toNat)) : Invariant s := by
  refine ⟨hwf, ?_, ?_, fun _ => ⟨ht, hblk, hiv⟩, ?_, ?_, hheld.imp_right fun h => ⟨hphase, h⟩⟩ <;> simp [hphase]

theorem invariant_of_compressing {s : State} (hwf : Memory.wf s.source) (hphase : s.phase = Phase.compressing)
    (ht : s.t.toNat ≤ 65) (hblk : s.blk.toNat < nblk s.len.toNat) (hheld : s.held = []) : Invariant s := by
  refine ⟨hwf, ?_, ?_, ?_, fun _ => ⟨ht, hblk⟩, ?_, .inl hheld⟩ <;> simp [hphase]

theorem invariant_of_finalized {s : State} (hwf : Memory.wf s.source) (hphase : s.phase = Phase.finalized)
    (hdigest : s.digest = serialize s.h) (hheld : s.held = []) : Invariant s := by
  refine ⟨hwf, ?_, ?_, ?_, ?_, fun _ => hdigest, .inl hheld⟩ <;> simp [hphase]

/-- Outside the LDW steps nothing is held (R56). -/
theorem held_eq_nil_of_invariant {s : State} (hinv : Invariant s) (hnot : s.phase = Phase.scheduling → 15 < s.t.toNat) :
    s.held = [] := by
  obtain ⟨-, -, -, -, -, -, hheld | ⟨hphase, ht, -⟩⟩ := hinv
  · exact hheld
  · exact absurd ht (hnot hphase).not_ge

/-- A source's answers are no part of the invariant: only its canonical form is. -/
theorem invariant_withSource {s : State} {m : Memory} (hinv : Invariant s) (hwf : Memory.wf m) :
    Invariant { s with source := m } :=
  ⟨hwf, hinv.2⟩

/-! ### The meanings -/

theorem toNat_advance_t {s : State} (ht : s.t.toNat ≤ 64) : (advance s).t.toNat = s.t.toNat + 1 := by
  rw [advance_t]
  bv_omega

/-- The count of blocks of any length that LEN holds fits BLK with room to spare (R33). -/
theorem nblk_le_of_msgLen (len : MsgLen) : nblk len.toNat ≤ 2 ^ 55 + 1 := by
  have hlen := len.isLt
  unfold nblk
  omega

theorem execInit_keeps_invariant {s t : State} (hinv : Invariant s) (h : execInit s = .next t) : Invariant t := by
  obtain ⟨hready, rfl⟩ := execInit_next h
  have hheld : s.held = [] := held_eq_nil_of_invariant hinv fun hp => by simp [ready_eq, hp] at hready
  exact invariant_of_iv hinv.1 (.inl rfl) rfl hheld

theorem execStart_keeps_invariant {n : Nat} {s t : State} (hinv : Invariant s) (h : execStart n s = .next t) :
    Invariant t := by
  obtain ⟨-, ⟨hphase, -, rfl⟩ | ⟨-, rfl⟩⟩ := execStart_next h
  · have hheld : s.held = [] := held_eq_nil_of_invariant hinv (by simp [hphase])
    obtain ⟨hwf, -, hiv, -⟩ := hinv
    exact invariant_of_iv hwf (.inr rfl) (hiv (.inl hphase)) hheld
  · exact hinv

theorem execBegin_keeps_invariant {s t : State} (hinv : Invariant s) (h : execBegin s = .next t) : Invariant t := by
  obtain ⟨hphase, rfl⟩ := execBegin_next h
  have hheld : s.held = [] := held_eq_nil_of_invariant hinv (by simp [hphase])
  have hroom := add_nine_le_blocks s.len.toNat
  obtain ⟨hwf, -, hiv, -⟩ := hinv
  refine invariant_of_scheduling hwf rfl (Nat.zero_le _) ?_ (fun _ => hiv (.inr hphase)) (.inl hheld)
  show 0 < nblk s.len.toNat
  omega

/-- The step of the schedule that moves T on and holds nothing keeps the invariant, whatever it does to W and the records. -/
theorem invariant_advance_scheduling {s : State} (hinv : Invariant s) (hphase : s.phase = Phase.scheduling)
    (ht : s.t.toNat ≤ 63) (w : Vector Word 64) (transfers : List PortRead) :
    Invariant (advance { s with w := w, transfers := transfers, held := [] }) := by
  obtain ⟨hwf, -, -, hsched, -⟩ := hinv
  obtain ⟨-, hblk, hiv⟩ := hsched hphase
  exact invariant_of_scheduling hwf hphase ((toNat_advance_t (s := s) (by omega)).trans_le (by omega)) hblk hiv (.inl rfl)

theorem execLdw_keeps_invariant {s t : State} (hinv : Invariant s) (h : execLdw s = .next t) : Invariant t := by
  obtain ⟨⟨hphase, ht⟩, word, r, rfl⟩ := execLdw_next h
  exact invariant_advance_scheduling hinv hphase (by omega) _ _

theorem execExp_keeps_invariant {s t : State} (hinv : Invariant s) (h : execExp s = .next t) : Invariant t := by
  obtain ⟨⟨hphase, hlo, hhi⟩, rfl⟩ := execExp_next h
  have hheld : s.held = [] := held_eq_nil_of_invariant hinv fun _ => by omega
  have hnext := invariant_advance_scheduling hinv hphase hhi (s.w.set s.t.toNat (expandedWord s.w s.t.toNat ⟨hlo, hhi⟩))
    s.transfers
  rwa [← hheld] at hnext

theorem execSeed_keeps_invariant {s t : State} (hinv : Invariant s) (h : execSeed s = .next t) : Invariant t := by
  obtain ⟨⟨hphase, ht⟩, rfl⟩ := execSeed_next h
  have hheld : s.held = [] := held_eq_nil_of_invariant hinv (by simp [ht])
  obtain ⟨hwf, -, -, hsched, -⟩ := hinv
  obtain ⟨-, hblk, -⟩ := hsched hphase
  exact invariant_of_compressing hwf rfl (Nat.zero_le _) hblk hheld

theorem execRnd_keeps_invariant {s t : State} (hinv : Invariant s) (h : execRnd s = .next t) : Invariant t := by
  obtain ⟨⟨hphase, ht⟩, rfl⟩ := execRnd_next h
  have hheld : s.held = [] := held_eq_nil_of_invariant hinv (by simp [hphase])
  obtain ⟨hwf, -, -, -, hcompr, -⟩ := hinv
  obtain ⟨-, hblk⟩ := hcompr hphase
  exact invariant_of_compressing hwf hphase ((toNat_advance_t (s := s) (by omega)).trans_le (by omega)) hblk hheld

theorem execFold_keeps_invariant {s t : State} (hinv : Invariant s) (h : execFold s = .next t) : Invariant t := by
  obtain ⟨⟨hphase, -⟩, rfl⟩ := execFold_next h
  have hheld : s.held = [] := held_eq_nil_of_invariant hinv (by simp [hphase])
  obtain ⟨hwf, -, -, -, hcompr, -⟩ := hinv
  obtain ⟨-, hblk⟩ := hcompr hphase
  exact invariant_of_compressing hwf hphase le_rfl hblk hheld

/-- NEXT goes to a block of the message other than block 0, because LAST = 0 and BLK + 1 does not wrap (R33, R187). -/
theorem execNext_keeps_invariant {s t : State} (hinv : Invariant s) (h : execNext s = .next t) : Invariant t := by
  obtain ⟨⟨hphase, -, hlast⟩, rfl⟩ := execNext_next h
  have hheld : s.held = [] := held_eq_nil_of_invariant hinv (by simp [hphase])
  obtain ⟨hwf, -, -, -, hcompr, -⟩ := hinv
  obtain ⟨-, hblk⟩ := hcompr hphase
  have hnotlast : s.blk.toNat + 1 ≠ nblk s.len.toNat := fun he => by simp [(last_eq s).mpr he] at hlast
  have hbound := nblk_le_of_msgLen s.len
  have hblk' : (s.blk + 1#56).toNat = s.blk.toNat + 1 :=
    BitVec.toNat_add_of_lt (show s.blk.toNat + 1 < 2 ^ 56 by omega)
  refine invariant_of_scheduling hwf rfl (Nat.zero_le _) ?_ (fun hzero => ?_) (.inl hheld)
  · show (s.blk + 1#56).toNat < nblk s.len.toNat
    omega
  · have hzero' : (s.blk + 1#56).toNat = 0 := congrArg BitVec.toNat hzero
    omega

theorem execSer_keeps_invariant {s t : State} (hinv : Invariant s) (h : execSer s = .next t) : Invariant t := by
  obtain ⟨⟨hphase, -⟩, rfl⟩ := execSer_next h
  have hheld : s.held = [] := held_eq_nil_of_invariant hinv (by simp [hphase])
  exact invariant_of_finalized hinv.1 rfl rfl hheld

theorem exec_keeps_invariant {i : Instr} {s t : State} (hinv : Invariant s) (h : exec i s = .next t) : Invariant t := by
  cases i with
  | init => exact execInit_keeps_invariant hinv h
  | start n => exact execStart_keeps_invariant hinv h
  | begin => exact execBegin_keeps_invariant hinv h
  | ldw => exact execLdw_keeps_invariant hinv h
  | exp => exact execExp_keeps_invariant hinv h
  | seed => exact execSeed_keeps_invariant hinv h
  | rnd => exact execRnd_keeps_invariant hinv h
  | fold => exact execFold_keeps_invariant hinv h
  | next => exact execNext_keeps_invariant hinv h
  | ser => exact execSer_keeps_invariant hinv h

/-! ### The engine and the machine -/

theorem engineStep_keeps_invariant {s t : State} (hinv : Invariant s) (h : engineStep s = .next t) : Invariant t := by
  obtain ⟨i, -, hexec⟩ | ⟨-, rfl⟩ := engineStep_next h
  · exact exec_keeps_invariant hinv hexec
  · exact hinv

/-- An LDW that the source holds up holds no more bytes than come before the unanswered one, which is a message byte (R56). -/
theorem holdLdw_keeps_invariant {s : State} {f : Fault} (hinv : Invariant s) (h : execLdw s = .fault f) :
    Invariant (holdLdw s) := by
  obtain ⟨⟨hphase, ht⟩, k, hk, -, hmsg, -, hlen⟩ := execLdw_fault h
  obtain ⟨hwf, -, -, hsched, -⟩ := hinv
  obtain ⟨ht64, hblk, hiv⟩ := hsched hphase
  obtain ⟨r, hr⟩ := holdLdw_eq s
  rw [hr] at hlen ⊢
  refine invariant_of_scheduling hwf hphase ht64 hblk hiv (.inr ⟨ht, by omega, ?_⟩)
  show ldwAddress s + (s.withReads r).held.length < s.len.toNat
  omega

theorem resetBlock_keeps_invariant {s : State} (hinv : Invariant s) : Invariant (resetBlock s) :=
  invariant_of_iv hinv.1 (.inl rfl) rfl rfl

/-- Settles O44: by the cases of a step; the engine keeps the invariant by its meanings, and the other events touch it in the
source alone. -/
theorem everyStepKeepsTheInvariant : Obligations.EveryStepKeepsTheInvariant := by
  intro s t hinv h
  have hrest : ∀ rest, Invariant { s with script := rest } := fun _ => hinv
  obtain ⟨-, hengine⟩ | ⟨e, rest, -, hevent⟩ := step_next h
  · exact engineStep_keeps_invariant hinv hengine
  rcases hevent with ⟨-, rfl⟩ | ⟨-, rfl⟩ | ⟨-, rfl⟩ | ⟨a, b, -, rfl⟩ | ⟨a, -, rfl⟩ | ⟨-, i, -, -, -, hexec⟩ |
    ⟨-, -, -, -, -, rfl⟩ | ⟨-, -, -, hengine⟩ | ⟨-, -, rfl⟩ | ⟨-, -, hengine⟩ | ⟨-, hengine⟩ | ⟨-, ⟨a, hstuck⟩, rfl⟩ |
    ⟨-, -, rfl⟩
  · exact resetBlock_keeps_invariant (hrest rest)
  · exact hinv
  · exact hinv
  · exact invariant_withSource (hrest rest) (Memory.wf_write a.isLt hinv.1)
  · exact invariant_withSource (hrest rest) (Memory.wf_erase _ hinv.1)
  · exact exec_keeps_invariant (hrest rest) hexec
  · exact hinv
  · exact engineStep_keeps_invariant hinv hengine
  · exact hinv
  · exact engineStep_keeps_invariant hinv hengine
  · exact engineStep_keeps_invariant (hrest rest) hengine
  · obtain ⟨-, hcontra⟩ | ⟨-, hldw⟩ := engineStep_fault hstuck
    · exact nomatch hcontra
    · exact holdLdw_keeps_invariant (hrest rest) hldw
  · exact hinv

end Sys2Proof
end

section
/-! The finalizer (spec/44_finalizer.md R165 to R167; spec/45_host_commands.md R176): the bytes that SER writes to DIGEST, the DIGEST
port by bytes and by words of H, and what FINALIZED retains. -/

namespace Sys2Proof

open Sys2Proof.Machine Sys2Proof.Safety

/-! ### The serialized hash state -/

/-- Byte 4·i + k of the serialized hash state is byte k of ser32(H[i]) (R167). -/
theorem getElem_serialize (h : Vector Word 8) (i : Fin 8) (k : Fin 4) :
    (serialize h)[4 * i.val + k.val]'(by omega) = ser32 h[i] k := by
  have hword : (4 * i.val + k.val) / 4 = i.val := by omega
  have hbyte : (4 * i.val + k.val) % 4 = k.val := by omega
  simp only [serialize, Vector.getElem_ofFn, hword, hbyte, Fin.getElem_fin]

/-- Settles O24: SER is enabled because LAST = 1, and its bytes are those of ser32(H[i]), at bits 31 − 8k : 24 − 8k of H[i]. -/
theorem serWritesTheDigest : Obligations.SerWritesTheDigest := by
  intro s hphase ht hlast
  refine ⟨serialize s.h, fun i => ⟨getElem_serialize s.h i 0, getElem_serialize s.h i 1, getElem_serialize s.h i 2,
    getElem_serialize s.h i 3⟩, ?_, rfl, rfl⟩
  rw [exec, execSer, if_pos ⟨hphase, ht, (last_eq s).mpr hlast⟩]

/-! ### The DIGEST port -/

/-- One byte more on the DIGEST port, below those that are there (R176). -/
def pushByte (b : Byte) (acc : BitVec 256) : BitVec 256 := (acc <<< 8) ||| b.setWidth 256

theorem digestPort_eq_foldr (d : Vector Byte 32) : digestPort d = d.toList.reverse.foldr pushByte 0#256 :=
  List.foldl_eq_foldr_reverse ..

theorem extractLsb'_pushByte_zero (b : Byte) (acc : BitVec 256) : (pushByte b acc).extractLsb' 0 8 = b := by
  ext j hj
  have hin : j < 256 := by omega
  simp [pushByte, hj, hin]

theorem extractLsb'_pushByte_succ (b : Byte) (acc : BitVec 256) {m : Nat} (hm : m + 1 < 32) :
    (pushByte b acc).extractLsb' (8 * (m + 1)) 8 = acc.extractLsb' (8 * m) 8 := by
  ext j hj
  have hin : 8 * (m + 1) + j < 256 := by omega
  have hout : ¬8 * (m + 1) + j < 8 := by omega
  have hdown : 8 * (m + 1) + j - 8 = 8 * m + j := by omega
  have hbyte : b.getLsbD (8 * (m + 1) + j) = false := BitVec.getLsbD_of_ge b _ (by omega)
  rw [BitVec.getElem_extractLsb', BitVec.getElem_extractLsb', pushByte, BitVec.getLsbD_or, BitVec.getLsbD_shiftLeft,
    BitVec.getLsbD_setWidth, hdown, hbyte]
  simp [hin, hout]

/-- Byte m of the port, counted from the least significant, is the m-th byte from the end. -/
theorem extractLsb'_foldr_pushByte : ∀ (l : List Byte) {m : Nat} (hm : m < l.length), m < 32 →
    (l.foldr pushByte 0#256).extractLsb' (8 * m) 8 = l[m]
  | b :: l, 0, _, _ => extractLsb'_pushByte_zero b _
  | b :: l, m + 1, hm, hbound => by
    rw [List.foldr_cons, extractLsb'_pushByte_succ b _ hbound, List.getElem_cons_succ]
    exact extractLsb'_foldr_pushByte l (Nat.lt_of_succ_lt_succ hm) (by omega)

/-- The DIGEST port by bytes (R176). -/
theorem extractLsb'_digestPort (d : Vector Byte 32) {k : Nat} (hk : k < 32) :
    (digestPort d).extractLsb' (248 - 8 * k) 8 = d[k] := by
  have hfromEnd : 248 - 8 * k = 8 * (31 - k) := by omega
  rw [digestPort_eq_foldr, hfromEnd, extractLsb'_foldr_pushByte _ (by simp; omega) (by omega), List.getElem_reverse]
  simp [show 31 - (31 - k) = k by omega]

/-- Four adjacent bytes of a value make the word that stands there (R58). -/
theorem be32_extractLsb' {n : Nat} (x : BitVec n) (p : Nat) :
    be32 (x.extractLsb' (p + 24) 8) (x.extractLsb' (p + 16) 8) (x.extractLsb' (p + 8) 8) (x.extractLsb' p 8) =
      x.extractLsb' p 32 := by
  have hhigh := BitVec.extractLsb'_append_extractLsb'_eq_extractLsb' (x := x) (start₁ := p + 16) (len₁ := 8)
    (start₂ := p + 24) (len₂ := 8) rfl
  have hmid := BitVec.extractLsb'_append_extractLsb'_eq_extractLsb' (x := x) (start₁ := p + 8) (len₁ := 8)
    (start₂ := p + 16) (len₂ := 16) rfl
  have hlow := BitVec.extractLsb'_append_extractLsb'_eq_extractLsb' (x := x) (start₁ := p) (len₁ := 8)
    (start₂ := p + 8) (len₂ := 24) rfl
  rw [be32, hhigh, hmid, hlow]

/-- The word of the bytes of a word is that word (R58, R59). -/
theorem be32_ser32 (w : Word) : be32 (ser32 w 0) (ser32 w 1) (ser32 w 2) (ser32 w 3) = w :=
  (be32_extractLsb' w 0).trans BitVec.extractLsb'_eq_self

/-- Settles O33: the port by bytes, and four bytes of the serialized hash state for each word of H. -/
theorem digestPortIsTheConcatenatedHashState : Obligations.DigestPortIsTheConcatenatedHashState := by
  refine ⟨fun d k => extractLsb'_digestPort d k.isLt, fun h i => ?_⟩
  have hbyte : ∀ k : Fin 4, (digestPort (serialize h)).extractLsb' (248 - 8 * (4 * i.val + k.val)) 8 = ser32 h[i] k :=
    fun k => (extractLsb'_digestPort _ (by omega)).trans (getElem_serialize h i k)
  have hplace : ∀ k : Fin 4, 248 - 8 * (4 * i.val + k.val) = 224 - 32 * i.val + (24 - 8 * k.val) := fun k => by omega
  simp only [hplace] at hbyte
  calc (digestPort (serialize h)).extractLsb' (224 - 32 * i.val) 32
      = be32 (ser32 h[i] 0) (ser32 h[i] 1) (ser32 h[i] 2) (ser32 h[i] 3) := by
        rw [← be32_extractLsb', ← hbyte 0, ← hbyte 1, ← hbyte 2, ← hbyte 3]
        rfl
    _ = h[i] := be32_ser32 _

/-! ### The phase FINALIZED -/

theorem sameBlock_refl (s : State) : SameBlock s s := ⟨rfl, rfl, rfl, rfl, rfl, rfl, rfl, rfl⟩

theorem selected_of_finalized {s : State} (hphase : s.phase = Phase.finalized) : selected s = .error .quiescentPhase := by
  rw [selected, seqWord, hphase]
  exact decodeSeq_of_quiescent _ _ (.inr rfl)

/-- In FINALIZED the engine has no step of its own (R89). -/
theorem engineStep_of_finalized {s : State} (hphase : s.phase = Phase.finalized) : engineStep s = .next s :=
  engineStep_of_quiescent (selected_of_finalized hphase)

/-- No command but INIT changes anything in FINALIZED: START is discarded there (R90, R172). -/
theorem eq_of_command_of_finalized {w : CmdWord} {i : Instr} {s t : State} (hphase : s.phase = Phase.finalized)
    (hdecode : decodeCmd w = .ok i) (h : exec i s = .next t) (hnot : i ≠ .init) : t = s := by
  rw [decodeCmd_eq] at hdecode
  split_ifs at hdecode
  · exact absurd (Except.ok.inj hdecode).symm hnot
  · obtain rfl := Except.ok.inj hdecode
    obtain ⟨-, ⟨hinit, -⟩ | ⟨-, rfl⟩⟩ := execStart_next h
    · exact absurd (hphase.symm.trans hinit) (by decide)
    · rfl

/-- In FINALIZED the next instruction is INIT exactly where the host presents its word (R186). -/
theorem running_eq_init_iff_of_finalized {s : State} (hphase : s.phase = Phase.finalized) :
    running s = some .init ↔ ∃ w rest, s.script = .command w :: rest ∧ decodeCmd w = .ok .init := by
  have hready : ready s = true := (ready_eq s).mpr (.inr hphase)
  have hnone : (selected s).toOption = none := by rw [selected_of_finalized hphase, Except.toOption]
  cases hs : s.script with
  | nil => simp [running, hs, hnone]
  | cons e rest =>
    cases e with
    | command w => cases hdecode : decodeCmd w <;> simp [running, hs, hready, hdecode, Except.toOption]
    | _ => simp [running, hs, hnone]

/-- The whole next state where INIT is transferred in FINALIZED (R171). -/
theorem step_of_init_of_finalized {s : State} {w : CmdWord} {rest : List HostEvent} (hphase : s.phase = Phase.finalized)
    (hs : s.script = .command w :: rest) (hdecode : decodeCmd w = .ok .init) :
    step s = .next { s with script := rest, h := iv, phase := Phase.init } := by
  have hready : ready s = true := (ready_eq s).mpr (.inr hphase)
  rw [step_of_script_cons hs, eventStep, if_pos hready, transferCommand, hdecode]
  exact if_pos hready

/-- In FINALIZED every step but INIT and reset leaves the block's registers as they are (R166). -/
theorem sameBlock_of_step_of_finalized {s t : State} (hphase : s.phase = Phase.finalized) (h : step s = .next t)
    (hreset : ¬Resetting s) (hrun : running s ≠ some .init) : SameBlock s t := by
  have hidle : ∀ rest, engineStep { s with script := rest } = .next { s with script := rest } :=
    fun _ => engineStep_of_finalized hphase
  have hengine : ∀ {rest u}, engineStep { s with script := rest } = .next u → SameBlock s u := by
    intro rest u hu
    obtain rfl := Host.Outcome.next.inj ((hidle rest).symm.trans hu)
    exact sameBlock_refl s
  obtain ⟨-, hu⟩ | ⟨e, rest, hs, hevent⟩ := step_next h
  · exact hengine (rest := s.script) hu
  rcases hevent with ⟨rfl, -⟩ | ⟨-, rfl⟩ | ⟨-, rfl⟩ | ⟨a, b, -, rfl⟩ | ⟨a, -, rfl⟩ | ⟨w, i, rfl, -, hdecode, hexec⟩ |
    ⟨-, -, -, -, -, rfl⟩ | ⟨-, -, -, hu⟩ | ⟨-, -, rfl⟩ | ⟨-, -, hu⟩ | ⟨-, hpass⟩ | ⟨-, ⟨a, hstuck⟩, -⟩ | ⟨-, hstuck, -⟩
  · exact absurd (congrArg List.head? hs) hreset
  · exact sameBlock_refl s
  · exact sameBlock_refl s
  · exact sameBlock_refl s
  · exact sameBlock_refl s
  · have hnot : i ≠ .init := by
      rintro rfl
      exact hrun ((running_eq_init_iff_of_finalized hphase).mpr ⟨w, rest, hs, hdecode⟩)
    obtain rfl := eq_of_command_of_finalized (s := { s with script := rest }) hphase hdecode hexec hnot
    exact sameBlock_refl s
  · exact sameBlock_refl s
  · exact hengine (rest := s.script) hu
  · exact sameBlock_refl s
  · exact hengine (rest := s.script) hu
  · exact hengine hpass
  · exact nomatch (hidle rest).symm.trans hstuck
  · exact nomatch (hidle rest).symm.trans hstuck

/-- Settles O48: a step that runs INIT is the transfer of its word, whose next state is known whole; any other leaves the block
as it is. -/
theorem finalizedStateIsRetained : Obligations.FinalizedStateIsRetained := by
  refine fun s t hphase h hreset => ⟨sameBlock_of_step_of_finalized hphase h hreset, fun hrun => ?_⟩
  obtain ⟨w, rest, hs, hdecode⟩ := (running_eq_init_iff_of_finalized hphase).mp hrun
  obtain rfl := Host.Outcome.next.inj ((step_of_init_of_finalized hphase hs hdecode).symm.trans h)
  exact sameBlock_refl _

end Sys2Proof
end

section
/-! The host interface: the command INIT (R171), and the observation of the outputs (R174 to R176). -/

namespace Sys2Proof

open Sys2Proof.Machine Sys2Proof.Safety

/-! ### INIT -/

/-- The opcode of INIT is read whatever ARG is (R82, R83). -/
theorem decodeCmd_init (arg : MsgLen) : decodeCmd (mkCmdWord 0b001#3 arg) = .ok .init := by
  rw [decodeCmd_eq, cmdOp_mkCmdWord, if_pos rfl]

/-- The whole next state of an accepted INIT (R171). -/
theorem exec_init_of_ready {s : State} (hready : ready s = true) :
    exec .init s = .next { s with h := iv, phase := Phase.init } :=
  if_pos hready

theorem ready_of_init {s : State} (hphase : s.phase = Phase.init) : ready s = true :=
  (ready_eq s).mpr (.inl hphase)

theorem done_of_init {s : State} (hphase : s.phase = Phase.init) : done s = false := by
  rw [done, hphase]
  decide

/-- Settles O9: both quiescent phases are READY, so INIT is accepted there, and its next state is in phase INIT. -/
theorem initReloadsHashStateAndPhase : Obligations.InitReloadsHashStateAndPhase :=
  ⟨fun s hphase => ⟨exec_init_of_ready ((ready_eq s).mpr hphase), ready_of_init rfl, done_of_init rfl⟩, decodeCmd_init⟩

/-! ### Observation -/

/-- While DONE = 1 the output DIGEST shows the register (R176). -/
theorem digestOutput_of_done {s : State} (hdone : done s = true) : digestOutput s = digestPort s.digest :=
  if_pos hdone

theorem sameBlock_readDigest (s : State) : SameBlock s (readDigest s) := sameBlock_refl s

/-- Settles O34: each of the two events is one observation of the state whose script goes on; its frame is that of `observe`
and of `readDigest`. -/
theorem observationShowsOutputsAndChangesNoRegister : Obligations.ObservationShowsOutputsAndChangesNoRegister := by
  refine fun s rest => ⟨step_of_script_cons, fun hs => ?_⟩
  refine ⟨readDigest { s with script := rest }, digestOutput { s with script := rest }, step_of_script_cons hs,
    sameBlock_readDigest _, readDigest_held _, readDigest_source _, readDigest_transfers _, readDigest_script _,
    readDigest_seen _, fun hdone => ?_⟩
  exact digestOutput_of_done (s := { s with script := rest }) hdone

end Sys2Proof
end

section
/-! The sequencer (spec/46_sequencer.md R185, R187): the whole next states of BEGIN and NEXT, and where LAST stands around them. -/

namespace Sys2Proof

open Sys2Proof.Machine

/-! ### BEGIN -/

theorem exec_begin_of_paddingDone {s : State} (hphase : s.phase = Phase.paddingDone) :
    exec .begin s = .next { s with phase := Phase.scheduling, blk := 0#56, t := 0#7 } :=
  if_pos hphase

/-- A message fits one block when 0x80 and the length field fit behind it (R121). -/
theorem nblk_eq_one_iff (len : Nat) : nblk len = 1 ↔ len ≤ 55 := by
  unfold nblk
  omega

/-- Block 0 is the last one exactly when it is the only one (R36). -/
theorem last_of_blk_eq_zero {s : State} (hblk : s.blk = 0#56) : last s = true ↔ s.len.toNat ≤ 55 := by
  rw [last_eq, hblk, ← nblk_eq_one_iff]
  exact eq_comm

/-- Settles O12: BEGIN is enabled; in the state it enters, PHASE is busy and BLK is 0. -/
theorem beginEntersTheBlockLoop : Obligations.BeginEntersTheBlockLoop :=
  fun _ hphase => ⟨exec_begin_of_paddingDone hphase, rfl, rfl, last_of_blk_eq_zero rfl⟩

/-! ### NEXT -/

theorem exec_next_of_not_last {s : State} (hphase : s.phase = Phase.compressing) (ht : s.t = 65#7)
    (hlast : last s = false) :
    exec .next s = .next { s with blk := s.blk + 1#56, t := 0#7, phase := Phase.scheduling } :=
  if_pos ⟨hphase, ht, hlast⟩

theorem last_eq_false_of_lt {s : State} (hmore : s.blk.toNat + 1 < nblk s.len.toNat) : last s = false :=
  Bool.eq_false_iff.mpr fun hlast => hmore.ne ((last_eq s).mp hlast)

/-- BLK has room for the number of every block of the message (R33). -/
theorem toNat_blk_add_one {s : State} (hmore : s.blk.toNat + 1 < nblk s.len.toNat) :
    (s.blk + 1#56).toNat = s.blk.toNat + 1 := by
  have hbound := nblk_le_of_msgLen s.len
  exact BitVec.toNat_add_of_lt (show s.blk.toNat + 1 < 2 ^ 56 by omega)

/-- Settles O22: a further block means LAST = 0, so NEXT is enabled, and its number fits BLK. -/
theorem nextGoesToTheFollowingBlock : Obligations.NextGoesToTheFollowingBlock := by
  intro s hphase ht hmore
  have hlast : last s = false := last_eq_false_of_lt hmore
  exact ⟨hlast, toNat_blk_add_one hmore, exec_next_of_not_last hphase ht hlast, rfl, rfl⟩

end Sys2Proof
end

section
/-! Reset (spec/70_reset_and_hazards.md R230 to R232): the machine's step at a scripted reset, and the signals it leaves. -/

namespace Sys2Proof

open Sys2Proof.Machine

/-- A reset asks for nothing to be enabled (R208, R231). -/
theorem step_of_reset {s : State} {rest : List HostEvent} (hs : s.script = .reset :: rest) :
    step s = .next (resetBlock { s with script := rest }) :=
  step_of_script_cons hs

@[simp] theorem ready_resetBlock (s : State) : ready (resetBlock s) = true := ready_of_init (resetBlock_phase s)

@[simp] theorem done_resetBlock (s : State) : done (resetBlock s) = false := done_of_init (resetBlock_phase s)

/-- Settles O35: PHASE = INIT gives READY = 1 and DONE = 0; the source and its transfers are outside the block. -/
theorem resetEstablishesInitFromAnyState : Obligations.ResetEstablishesInitFromAnyState :=
  fun _ _ hs => ⟨_, step_of_reset hs, resetBlock_phase _, resetBlock_h _, ready_resetBlock _, done_resetBlock _,
    resetBlock_source _, resetBlock_transfers _, resetBlock_script _⟩

end Sys2Proof
end

section
/-! Encoding and decoding together (spec/30_encoding.md R82 to R84, R87): the encoder's word is read back, and a START whose
length no word carries has none. -/

namespace Sys2Proof

/-- The word of an instruction is of format `SEQ` and matches a row of its own, so the decoder reads the instruction back. -/
theorem decode_of_encodesInRow {i : Instr}
    (h : ∃ w r, encode i = some (.seq w) ∧ r ∈ seqTable ∧ r.op = i ∧ r.selects w = true) :
    ∃ w, encode i = some w ∧ decode w = .ok i := by
  obtain ⟨w, r, hencode, hrow, rfl, hselects⟩ := h
  exact ⟨.seq w, hencode, decodeSeq_of_selects hrow hselects⟩

/-- The word of START is read with the whole length it was given (R83, R202). -/
theorem decode_encode_start {n : Nat} (h : (Instr.start n).wf = true) :
    ∃ w, encode (.start n) = some w ∧ decode w = .ok (.start n) := by
  obtain ⟨w, hencode, hop, harg⟩ := Laws.EncodesInRow.start n h
  refine ⟨.cmd w, hencode, ?_⟩
  rw [decode, decodeCmd_eq, hop, harg]
  rfl

theorem decode_encode {i : Instr} (h : i.wf = true) : ∃ w, encode i = some w ∧ decode w = .ok i := by
  cases i with
  | init => exact ⟨_, rfl, decodeCmd_init _⟩
  | start n => exact decode_encode_start h
  | begin => exact decode_of_encodesInRow Laws.EncodesInRow.begin
  | ldw => exact decode_of_encodesInRow Laws.EncodesInRow.ldw
  | exp => exact decode_of_encodesInRow Laws.EncodesInRow.exp
  | seed => exact decode_of_encodesInRow Laws.EncodesInRow.seed
  | rnd => exact decode_of_encodesInRow Laws.EncodesInRow.rnd
  | fold => exact decode_of_encodesInRow Laws.EncodesInRow.fold
  | next => exact decode_of_encodesInRow Laws.EncodesInRow.next
  | ser => exact decode_of_encodesInRow Laws.EncodesInRow.ser

/-- Only a START can be ill-formed, and the encoder gives it no word (R94, R202). -/
theorem encode_eq_none_of_not_wf {i : Instr} (h : i.wf = false) : encode i = none := by
  cases i with
  | start n => exact if_neg (Bool.eq_false_iff.mp h)
  | _ => exact absurd h (by decide)

/-- Settles O1: a micro-operation's word matches its own row of R87, a command's word has its opcode, and START's ARG is the
length. -/
theorem decodeOfEncodeIsTheInstruction : Obligations.DecodeOfEncodeIsTheInstruction :=
  ⟨fun _ => decode_encode, fun _ => encode_eq_none_of_not_wf⟩

/-- Settles O4: the words are literals, on which the decoder computes. -/
theorem writtenWordsDecode : Obligations.WrittenWordsDecode := by
  unfold Obligations.WrittenWordsDecode
  decide

end Sys2Proof
end

section
/-! Which micro-operation a state selects (spec/30_encoding.md R87 to R91), as a condition on the control registers, and the
steps that run it. -/

namespace Sys2Proof

open Sys2Proof.Machine Sys2Proof.Safety

/-- The states whose sequencer word selects the instruction, by the columns of R87; no state selects a command. -/
def Selects : Instr → State → Prop
  | .init, _ | .start _, _ => False
  | .begin, s => s.phase = Phase.paddingDone
  | .ldw, s => s.phase = Phase.scheduling ∧ s.t.toNat ≤ 15
  | .exp, s => s.phase = Phase.scheduling ∧ 16 ≤ s.t.toNat ∧ s.t.toNat ≤ 63
  | .seed, s => s.phase = Phase.scheduling ∧ s.t = 64#7
  | .rnd, s => s.phase = Phase.compressing ∧ s.t.toNat ≤ 63
  | .fold, s => s.phase = Phase.compressing ∧ s.t = 64#7
  | .next, s => s.phase = Phase.compressing ∧ s.t = 65#7 ∧ last s = false
  | .ser, s => s.phase = Phase.compressing ∧ s.t = 65#7 ∧ last s = true

theorem selects_of_selected {i : Instr} {s : State} (h : selected s = .ok i) : Selects i s := by
  rw [selected, seqWord, decodeSeq_mkSeqWord] at h
  split_ifs at h with hbegin hldw hexp hseed hrnd hfold hnext hser <;> obtain rfl := Except.ok.inj h
  · exact hbegin
  · exact hldw
  · exact ⟨hexp.1, Nat.lt_of_not_le fun hle => hldw ⟨hexp.1, hle⟩, hexp.2⟩
  · exact hseed.imp_right BitVec.eq_of_toNat_eq
  · exact hrnd
  · exact hfold.imp_right BitVec.eq_of_toNat_eq
  · exact hnext.imp_right fun h => h.imp_left BitVec.eq_of_toNat_eq
  · exact hser.imp_right fun h => h.imp_left BitVec.eq_of_toNat_eq

theorem selected_of_selects {i : Instr} {s : State} (h : Selects i s) : selected s = .ok i := by
  rw [selected, seqWord, decodeSeq_mkSeqWord]
  cases i with
  | init => exact h.elim
  | start n => exact h.elim
  | begin => exact if_pos h
  | ldw => simp [h.1, h.2]
  | exp =>
    obtain ⟨hphase, hlo, hhi⟩ := h
    have hldw : ¬s.t.toNat ≤ 15 := by omega
    simp [hphase, hldw, hhi]
  | seed => simp [h.1, h.2]
  | rnd => simp [h.1, h.2]
  | fold => simp [h.1, h.2]
  | next =>
    obtain ⟨hphase, ht, hlast⟩ := h
    simp [hphase, ht, hlast]
  | ser =>
    obtain ⟨hphase, ht, hlast⟩ := h
    simp [hphase, ht, hlast]

/-- Selection by the control registers (R87). -/
theorem selected_eq_ok_iff {i : Instr} {s : State} : selected s = .ok i ↔ Selects i s :=
  ⟨selects_of_selected, selected_of_selects⟩

/-! ### Refusals -/

theorem andThen_eq_refused {α β : Type} {o : Result α} {f : α → Result β} {r : Refusal} :
    andThen o f = .refused r ↔ o = .refused r ∨ ∃ a, o = .next a ∧ f a = .refused r := by
  cases o <;> simp [andThen]

/-- A byte of LDW's word is refused only where PM is undefined (R126). -/
theorem pmWordByte_refused {s : State} {a k : Nat} {r : Refusal} (h : pmWordByte s a k = .refused r) :
    r = .outsidePaddedMessage ∧ 64 * nblk s.len.toNat ≤ a + k := by
  unfold pmWordByte at h
  split at h
  · simp at h
  · unfold pmByte at h
    split_ifs at h with hmsg hend hzero hfield
    · cases hread : Memory.read s.source (a + k) with
      | some b => simp [memRead, hread] at h
      | none => simp [memRead, hread] at h
    · exact ⟨(Host.Outcome.refused.inj h).symm, by omega⟩

/-- LDW's word is refused only where one of its four addresses is outside the padded message. -/
theorem pmWord_refused {s : State} {a : Nat} {r : Refusal} (h : pmWord s a = .refused r) :
    r = .outsidePaddedMessage ∧ 64 * nblk s.len.toNat ≤ a + 3 := by
  have hbyte : ∀ {reads k}, k ≤ 3 → pmWordByte (s.withReads reads) a k = .refused r →
      r = .outsidePaddedMessage ∧ 64 * nblk s.len.toNat ≤ a + 3 := fun hk hr =>
    (pmWordByte_refused hr).imp_right fun hle => hle.trans (Nat.add_le_add_left hk a)
  unfold pmWord at h
  rcases andThen_eq_refused.mp h with h | ⟨⟨b0, s0⟩, h0, h⟩
  · exact hbyte (reads := []) (by decide) (s.withReads_nil.symm ▸ h)
  obtain ⟨r0, rfl⟩ := pmWordByte_next h0
  rcases andThen_eq_refused.mp h with h | ⟨⟨b1, s1⟩, h1, h⟩
  · exact hbyte (by decide) h
  obtain ⟨r1, rfl⟩ := pmWordByte_next h1
  rw [State.withReads_withReads] at h
  rcases andThen_eq_refused.mp h with h | ⟨⟨b2, s2⟩, h2, h⟩
  · exact hbyte (by decide) h
  obtain ⟨r2, rfl⟩ := pmWordByte_next h2
  rw [State.withReads_withReads] at h
  rcases andThen_eq_refused.mp h with h | ⟨⟨b3, s3⟩, -, h⟩
  · exact hbyte (by decide) h
  · simp at h

/-- A selected LDW is refused only for a block outside the message (R126). -/
theorem execLdw_refused {s : State} {r : Refusal} (hsel : Selects .ldw s) (h : execLdw s = .refused r) :
    r = .outsidePaddedMessage ∧ 64 * nblk s.len.toNat ≤ ldwAddress s + 3 := by
  rw [execLdw, dif_pos ⟨hsel.1, hsel.2⟩] at h
  rcases andThen_eq_refused.mp h with h | ⟨⟨word, s'⟩, -, h⟩
  · exact pmWord_refused h
  · simp at h

/-- A micro-operation is refused as `notEnabled` exactly where the state does not select it. -/
theorem exec_eq_notEnabled_iff {i : Instr} {s : State} (hi : i ∈ [Instr.begin, .ldw, .exp, .seed, .rnd, .fold, .next, .ser]) :
    exec i s = .refused .notEnabled ↔ ¬Selects i s := by
  cases i with
  | init => simp at hi
  | start n => simp at hi
  | begin => simp [exec, execBegin, Selects]
  | ldw =>
    constructor
    · intro h hsel
      exact absurd (execLdw_refused hsel h).1 (by decide)
    · exact fun h => dif_neg h
  | exp => simp [exec, execExp, Selects]
  | seed => simp [exec, execSeed, Selects]
  | rnd => simp [exec, execRnd, Selects]
  | fold => simp [exec, execFold, Selects]
  | next => simp [exec, execNext, Selects]
  | ser => simp [exec, execSer, Selects]

theorem exec_init_eq_notEnabled_iff (s : State) : exec .init s = .refused .notEnabled ↔ ready s = false := by
  simp [exec, execInit]

theorem exec_start_eq_notEnabled_iff (n : Nat) (s : State) :
    exec (.start n) s = .refused .notEnabled ↔ ready s = false := by
  cases hready : ready s with
  | false => simp [exec, execStart, hready]
  | true =>
    simp only [exec, execStart, hready, if_true]
    split_ifs <;> simp

/-- Settles O8: each meaning tests the columns of its row of R87, or READY. -/
theorem notEnabledIsRefusedExactlyWhenNotEnabled : Obligations.NotEnabledIsRefusedExactlyWhenNotEnabled := by
  refine ⟨fun i s hi => ?_, exec_init_eq_notEnabled_iff, exec_start_eq_notEnabled_iff⟩
  rw [exec_eq_notEnabled_iff hi, Ne, selected_eq_ok_iff]

/-! ### The step of a busy phase -/

theorem ready_eq_false_of_selected {i : Instr} {s : State} (h : selected s = .ok i) : ready s = false := by
  rw [selected_eq_ok_iff] at h
  cases i with
  | init => exact h.elim
  | start n => exact h.elim
  | begin =>
    have hphase : s.phase = Phase.paddingDone := h
    simp [ready, hphase]
  | _ => simp [ready, h.1]

theorem done_eq_false_of_not_ready {s : State} (h : ready s = false) : done s = false :=
  Bool.eq_false_iff.mpr fun hdone => Bool.eq_false_iff.mp h (ready_of_done hdone)

/-- The script lets the engine take its step: nothing is scripted, or a WAIT that is not over yet (R95). -/
abbrev EngineFree (s : State) : Prop := s.script = [] ∨ ∃ rest, s.script = .wait :: rest

theorem step_eq_exec_of_selected {i : Instr} {s : State} (hs : EngineFree s) (h : selected s = .ok i) : step s = exec i s := by
  have hdone := done_eq_false_of_not_ready (ready_eq_false_of_selected h)
  rcases hs with hs | ⟨rest, hs⟩
  · rw [step_of_script_nil hs, engineStep_of_selected h]
  · rw [step_of_script_cons hs, eventStep, hdone, if_neg Bool.false_ne_true, engineStep_of_selected h]

/-- A command presented while READY = 0 is held, and the engine steps (R170). -/
theorem step_of_held_command {s : State} {w : CmdWord} {rest : List HostEvent} (hready : ready s = false)
    (hs : s.script = .command w :: rest) : step s = engineStep s := by
  rw [step_of_script_cons hs, eventStep, hready, if_neg Bool.false_ne_true]

theorem step_of_command {s : State} {w : CmdWord} {rest : List HostEvent} (hready : ready s = true)
    (hs : s.script = .command w :: rest) : step s = transferCommand w { s with script := rest } := by
  rw [step_of_script_cons hs, eventStep, if_pos hready]

/-- Settles O5: a selected micro-operation means READY = 0 and DONE = 0, so a command and a WAIT are held. -/
theorem stepRunsTheSelectedMicroOperation : Obligations.StepRunsTheSelectedMicroOperation := by
  intro s i h
  refine ⟨fun hs => step_eq_exec_of_selected (.inl hs) h, fun w rest hs => ?_,
    fun rest hs => step_eq_exec_of_selected (.inr ⟨rest, hs⟩) h, fun rest t hs hexec => ?_⟩
  · rw [step_of_held_command (ready_eq_false_of_selected h) hs, engineStep_of_selected h]
  · have hengine : engineStep { s with script := rest } = .next t :=
      (engineStep_of_selected (s := { s with script := rest }) h).trans hexec
    rw [step_of_script_cons hs, eventStep, hengine]

/-- Settles O6: with READY = 1 the step is the transfer, and the transfer follows the decoder. -/
theorem stepTransfersThePresentedCommand : Obligations.StepTransfersThePresentedCommand := by
  intro s w rest hready hs
  rw [step_of_command hready hs]
  exact ⟨fun i hdecode => by rw [transferCommand, hdecode], fun r hdecode => by rw [transferCommand, hdecode]⟩

end Sys2Proof
end

section
/-! Who writes what (spec/10_state.md R22 to R34; spec/46_sequencer.md R186, R194): the fields outside the block that no
instruction writes, the writers of each register, and the edges of the state machine. -/

namespace Sys2Proof

open Sys2Proof.Machine Sys2Proof.Safety

/-! ### What no instruction writes -/

/-- The two states agree on what the host and the source's owner have, and on the host's records. -/
structure SameOutside (s t : State) : Prop where
  source : t.source = s.source
  script : t.script = s.script
  seen : t.seen = s.seen
  draws : t.draws = s.draws

/-- No instruction writes the message, the script or the host's records (R57, R186). -/
theorem exec_sameOutside {i : Instr} {s t : State} (h : exec i s = .next t) : SameOutside s t := by
  cases i with
  | init => obtain ⟨-, rfl⟩ := execInit_next h; exact ⟨rfl, rfl, rfl, rfl⟩
  | start n => obtain ⟨-, ⟨-, -, rfl⟩ | ⟨-, rfl⟩⟩ := execStart_next h <;> exact ⟨rfl, rfl, rfl, rfl⟩
  | begin => obtain ⟨-, rfl⟩ := execBegin_next h; exact ⟨rfl, rfl, rfl, rfl⟩
  | ldw => obtain ⟨-, -, -, rfl⟩ := execLdw_next h; exact ⟨rfl, rfl, rfl, rfl⟩
  | exp => obtain ⟨-, rfl⟩ := execExp_next h; exact ⟨rfl, rfl, rfl, rfl⟩
  | seed => obtain ⟨-, rfl⟩ := execSeed_next h; exact ⟨rfl, rfl, rfl, rfl⟩
  | rnd => obtain ⟨-, rfl⟩ := execRnd_next h; exact ⟨rfl, rfl, rfl, rfl⟩
  | fold => obtain ⟨-, rfl⟩ := execFold_next h; exact ⟨rfl, rfl, rfl, rfl⟩
  | next => obtain ⟨-, rfl⟩ := execNext_next h; exact ⟨rfl, rfl, rfl, rfl⟩
  | ser => obtain ⟨-, rfl⟩ := execSer_next h; exact ⟨rfl, rfl, rfl, rfl⟩

theorem engineStep_sameOutside {s t : State} (h : engineStep s = .next t) : SameOutside s t := by
  obtain ⟨i, -, hexec⟩ | ⟨-, rfl⟩ := engineStep_next h
  · exact exec_sameOutside hexec
  · exact ⟨rfl, rfl, rfl, rfl⟩

/-- Settles O7: the step is the engine's, which does not write the script. -/
theorem heldCommandStaysPresented : Obligations.HeldCommandStaysPresented := by
  intro s t w rest hready hs h
  have hengine : engineStep s = .next t := (step_of_held_command hready hs).symm.trans h
  exact ⟨(engineStep_sameOutside hengine).script.trans hs, hengine⟩

/-- The source changes only by its owner's two events (R57, R241). -/
theorem step_next_source {s t : State} (h : step s = .next t) :
    t.source = s.source ∨
    (∃ a b rest, s.script = .supply a b :: rest ∧ t.source = Memory.write s.source a.toNat b) ∨
    (∃ a rest, s.script = .withdraw a :: rest ∧ t.source = Memory.erase s.source a.toNat) := by
  obtain ⟨-, hengine⟩ | ⟨e, rest, hs, hevent⟩ := step_next h
  · exact .inl (engineStep_sameOutside hengine).source
  rcases hevent with ⟨-, rfl⟩ | ⟨-, rfl⟩ | ⟨-, rfl⟩ | ⟨a, b, rfl, rfl⟩ | ⟨a, rfl, rfl⟩ | ⟨-, i, -, -, -, hexec⟩ |
    ⟨-, -, -, -, -, rfl⟩ | ⟨-, -, -, hengine⟩ | ⟨-, -, rfl⟩ | ⟨-, -, hengine⟩ | ⟨-, hengine⟩ | ⟨-, -, rfl⟩ | ⟨-, -, rfl⟩
  · exact .inl rfl
  · exact .inl rfl
  · exact .inl rfl
  · exact .inr (.inl ⟨a, b, rest, hs, rfl⟩)
  · exact .inr (.inr ⟨a, rest, hs, rfl⟩)
  · exact .inl (exec_sameOutside hexec).source
  · exact .inl rfl
  · exact .inl (engineStep_sameOutside hengine).source
  · exact .inl rfl
  · exact .inl (engineStep_sameOutside hengine).source
  · exact .inl (engineStep_sameOutside hengine).source
  · obtain ⟨r, hr⟩ := holdLdw_eq { s with script := rest }
    exact .inl (hr ▸ rfl)
  · exact .inl rfl

/-- Settles O42: a busy phase leaves the host's rules three ways to touch an address: outside the message, with the byte
that is there, or below what has been read. -/
theorem ruleKeepingHostLeavesTheUnreadMessageAlone : Obligations.RuleKeepingHostLeavesTheUnreadMessageAlone := by
  intro s t hrules hbusy h i b hunread hmsg hread
  rcases step_next_source h with hsame | ⟨a, b', rest, hs, hwrite⟩ | ⟨a, rest, hs, herase⟩
  · rwa [hsame]
  · rw [hwrite]
    by_cases hia : i = a.toNat
    · subst hia
      have hbyte : b = b' := by simpa [hostKeepsRules, hs, hbusy, hmsg.not_ge, hread] using hrules
      rw [hbyte, Memory.read_write_same]
    · rwa [Memory.read_write_other _ _ hia]
  · have hia : i ≠ a.toNat := by
      rintro rfl
      simp [hostKeepsRules, hs, hbusy, hmsg.not_ge, hunread.not_gt, hread] at hrules
    rwa [herase, Memory.read_erase_other _ hia]

/-! ### The instruction a step runs -/

/-- Where an engine step is next, the next instruction is the selected micro-operation. -/
theorem running_eq_selected {s : State}
    (hs : s.script = [] ∨ (∃ rest, s.script = .wait :: rest) ∨ (∃ rest, s.script = .pass :: rest) ∨
      (ready s = false ∧ ∃ w rest, s.script = .command w :: rest)) : running s = (selected s).toOption := by
  rcases hs with hs | ⟨rest, hs⟩ | ⟨rest, hs⟩ | ⟨hready, w, rest, hs⟩ <;> simp [running, *]

/-- The instruction of a step: it is executed, or it is an LDW that is held, or there is none and the block stays as it is. -/
inductive Runs (s t : State) : Prop where
  | executed (i : Instr) (rest : List HostEvent) (hrun : running s = some i)
      (hexec : exec i { s with script := rest } = .next t)
  | heldUp (rest : List HostEvent) (hrun : running s = some .ldw) (ht : t = holdLdw { s with script := rest })
  | idle (hrun : running s = none) (hblock : SameBlock s t) (hheld : t.held = s.held) (htransfers : t.transfers = s.transfers)

theorem runs_of_engineStep {s t : State} (rest : List HostEvent) (hrun : running s = (selected s).toOption)
    (h : engineStep { s with script := rest } = .next t) : Runs s t := by
  obtain ⟨i, hi, hexec⟩ | ⟨⟨e, he⟩, rfl⟩ := engineStep_next h
  · have hi : selected s = .ok i := hi
    exact .executed i rest (by rw [hrun, hi]; rfl) hexec
  · have he : selected s = .error e := he
    exact .idle (by rw [hrun, he]; rfl) (sameBlock_refl s) rfl rfl

/-- Every step but a reset runs one instruction or none. -/
theorem runs_of_step {s t : State} (h : step s = .next t) (hreset : ¬Resetting s) : Runs s t := by
  obtain ⟨hs, hengine⟩ | ⟨e, rest, hs, hevent⟩ := step_next h
  · exact runs_of_engineStep s.script (running_eq_selected (.inl hs)) hengine
  rcases hevent with ⟨rfl, -⟩ | ⟨rfl, rfl⟩ | ⟨rfl, rfl⟩ | ⟨a, b, rfl, rfl⟩ | ⟨a, rfl, rfl⟩ |
    ⟨w, i, rfl, hready, hdecode, hexec⟩ | ⟨w, r, rfl, hready, hdecode, rfl⟩ | ⟨w, rfl, hready, hengine⟩ |
    ⟨rfl, hdone, rfl⟩ | ⟨rfl, -, hengine⟩ | ⟨rfl, hengine⟩ | ⟨rfl, ⟨a, hstuck⟩, rfl⟩ | ⟨rfl, hstuck, rfl⟩
  · exact absurd (congrArg List.head? hs) hreset
  · exact .idle (by simp [running, hs]) (sameBlock_refl s) rfl rfl
  · exact .idle (by simp [running, hs]) (sameBlock_refl s) rfl rfl
  · exact .idle (by simp [running, hs]) (sameBlock_refl s) rfl rfl
  · exact .idle (by simp [running, hs]) (sameBlock_refl s) rfl rfl
  · exact .executed i rest (by simp [running, hs, hready, hdecode, Except.toOption]) hexec
  · exact .idle (by simp [running, hs, hready, hdecode, Except.toOption]) (sameBlock_refl s) rfl rfl
  · exact runs_of_engineStep s.script (running_eq_selected (.inr (.inr (.inr ⟨hready, w, rest, hs⟩)))) hengine
  · have hsel : selected s = .error .quiescentPhase := selected_of_finalized ((done_eq s).mp hdone)
    exact .idle (by simp [running, hs, hsel, Except.toOption]) (sameBlock_refl s) rfl rfl
  · exact runs_of_engineStep s.script (running_eq_selected (.inr (.inl ⟨rest, hs⟩))) hengine
  · exact runs_of_engineStep rest (running_eq_selected (.inr (.inr (.inl ⟨rest, hs⟩)))) hengine
  · obtain ⟨-, hcontra⟩ | ⟨hsel, -⟩ := engineStep_fault hstuck
    · exact nomatch hcontra
    · have hsel : selected s = .ok .ldw := hsel
      exact .heldUp rest (by simp [running, hs, hsel, Except.toOption]) rfl
  · obtain ⟨hsel, -⟩ | ⟨-, hldw⟩ := engineStep_fault hstuck
    · have hsel : selected s = .error .unreachableWord := hsel
      exact .idle (by simp [running, hs, hsel, Except.toOption]) (sameBlock_refl s) rfl rfl
    · obtain ⟨-, k, -, hcontra, -⟩ := execLdw_fault hldw
      exact nomatch hcontra

/-! ### The writers of each register -/

/-- The writers of each register, for a step from `s` to `t` that runs `i` (R22, R27, R29 to R34). -/
def WrittenBy (i : Option Instr) (s t : State) : Prop :=
  (t.h ≠ s.h → i = some .init ∨ i = some .fold) ∧
  (t.w ≠ s.w → i = some .ldw ∨ i = some .exp) ∧
  (t.v ≠ s.v → i = some .seed ∨ i = some .rnd) ∧
  (t.digest ≠ s.digest → i = some .ser) ∧
  (t.len ≠ s.len → ∃ n, i = some (.start n)) ∧
  (t.phase ≠ s.phase → i = some .init ∨ (∃ n, i = some (.start n)) ∨ i = some .begin ∨ i = some .seed ∨ i = some .next ∨
    i = some .ser) ∧
  (t.blk ≠ s.blk → i = some .begin ∨ i = some .next) ∧
  (t.t ≠ s.t → i = some .begin ∨ i = some .ldw ∨ i = some .exp ∨ i = some .seed ∨ i = some .rnd ∨ i = some .fold ∨
    i = some .next) ∧
  (t.transfers ≠ s.transfers ∨ t.held ≠ s.held → i = some .ldw)

/-- A step that changes no register and makes no read needs no writer. -/
theorem writtenBy_of_sameBlock {i : Option Instr} {s t : State} (hblock : SameBlock s t) (hheld : t.held = s.held)
    (htransfers : t.transfers = s.transfers) : WrittenBy i s t := by
  obtain ⟨hh, hw, hv, hdigest, hlen, hphase, hblk, ht⟩ := hblock
  simp [WrittenBy, hh, hw, hv, hdigest, hlen, hphase, hblk, ht, hheld, htransfers]

theorem exec_writtenBy {i : Instr} {s t : State} (h : exec i s = .next t) : WrittenBy (some i) s t := by
  cases i with
  | init => obtain ⟨-, rfl⟩ := execInit_next h; simp [WrittenBy]
  | start n =>
    obtain ⟨-, ⟨-, -, rfl⟩ | ⟨-, rfl⟩⟩ := execStart_next h
    · simp [WrittenBy]
    · exact writtenBy_of_sameBlock (sameBlock_refl _) rfl rfl
  | begin => obtain ⟨-, rfl⟩ := execBegin_next h; simp [WrittenBy]
  | ldw => obtain ⟨-, -, -, rfl⟩ := execLdw_next h; simp [WrittenBy]
  | exp => obtain ⟨-, rfl⟩ := execExp_next h; simp [WrittenBy]
  | seed => obtain ⟨-, rfl⟩ := execSeed_next h; simp [WrittenBy]
  | rnd => obtain ⟨-, rfl⟩ := execRnd_next h; simp [WrittenBy]
  | fold => obtain ⟨-, rfl⟩ := execFold_next h; simp [WrittenBy]
  | next => obtain ⟨-, rfl⟩ := execNext_next h; simp [WrittenBy]
  | ser => obtain ⟨-, rfl⟩ := execSer_next h; simp [WrittenBy]

theorem holdLdw_writtenBy (s : State) : WrittenBy (some .ldw) s (holdLdw s) := by
  obtain ⟨r, hr⟩ := holdLdw_eq s
  rw [hr]
  simp [WrittenBy]

theorem step_writtenBy {s t : State} (h : step s = .next t) (hreset : ¬Resetting s) : WrittenBy (running s) s t := by
  cases runs_of_step h hreset with
  | executed i rest hrun hexec => exact hrun ▸ exec_writtenBy (s := { s with script := rest }) hexec
  | heldUp rest hrun ht => exact hrun ▸ ht ▸ holdLdw_writtenBy { s with script := rest }
  | idle hrun hblock hheld htransfers => exact writtenBy_of_sameBlock hblock hheld htransfers

/-- Settles O47: each instruction writes its own registers; where the source changes, the step runs none. -/
theorem registersChangeOnlyByTheirWriters : Obligations.RegistersChangeOnlyByTheirWriters := by
  intro s t h hreset
  obtain ⟨hh, hw, hv, hdigest, hlen, hphase, hblk, ht, hport⟩ := step_writtenBy h hreset
  refine ⟨hh, hw, hv, hdigest, hlen, hphase, hblk, ht, hport, fun hrun => ?_⟩
  rcases step_next_source h with hsame | ⟨a, b, rest, hs, -⟩ | ⟨a, rest, hs, -⟩
  · exact hsame
  · exact absurd (by simp [running, hs]) hrun
  · exact absurd (by simp [running, hs]) hrun

/-! ### The edges of the state machine -/

/-- An edge of DOC0's state machine with the instruction that follows it (R194). -/
def Edge (i : Option Instr) (p q : PhaseCode) : Prop :=
  (p = Phase.init ∧ q = Phase.paddingDone ∧ ∃ n, i = some (.start n)) ∨
  (p = Phase.paddingDone ∧ q = Phase.scheduling ∧ i = some .begin) ∨
  (p = Phase.scheduling ∧ q = Phase.compressing ∧ i = some .seed) ∨
  (p = Phase.compressing ∧ q = Phase.scheduling ∧ i = some .next) ∨
  (p = Phase.compressing ∧ q = Phase.finalized ∧ i = some .ser) ∨
  (p = Phase.finalized ∧ q = Phase.init ∧ i = some .init)

theorem exec_edge {i : Instr} {s t : State} (h : exec i s = .next t) (hne : t.phase ≠ s.phase) :
    Edge (some i) s.phase t.phase := by
  cases i with
  | init =>
    obtain ⟨hready, rfl⟩ := execInit_next h
    rcases (ready_eq s).mp hready with hphase | hphase
    · exact absurd hphase.symm hne
    · simp [Edge, hphase]
  | start n =>
    obtain ⟨-, ⟨hphase, -, rfl⟩ | ⟨-, rfl⟩⟩ := execStart_next h
    · simp [Edge, hphase]
    · exact absurd rfl hne
  | begin => obtain ⟨hphase, rfl⟩ := execBegin_next h; simp [Edge, hphase]
  | ldw => obtain ⟨_, _, _, rfl⟩ := execLdw_next h; exact absurd rfl hne
  | exp => obtain ⟨_, rfl⟩ := execExp_next h; exact absurd rfl hne
  | seed => obtain ⟨⟨hphase, -⟩, rfl⟩ := execSeed_next h; simp [Edge, hphase]
  | rnd => obtain ⟨_, rfl⟩ := execRnd_next h; exact absurd rfl hne
  | fold => obtain ⟨-, rfl⟩ := execFold_next h; exact absurd rfl hne
  | next => obtain ⟨⟨hphase, -⟩, rfl⟩ := execNext_next h; simp [Edge, hphase]
  | ser => obtain ⟨⟨hphase, -⟩, rfl⟩ := execSer_next h; simp [Edge, hphase]

/-- A step that is no reset changes PHASE only along the edge of the instruction it runs. -/
theorem step_edge {s t : State} (h : step s = .next t) (hne : t.phase ≠ s.phase) (hreset : ¬Resetting s) :
    Edge (running s) s.phase t.phase := by
  cases runs_of_step h hreset with
  | executed i rest hrun hexec => exact hrun ▸ exec_edge (s := { s with script := rest }) hexec hne
  | heldUp rest _ ht =>
    obtain ⟨r, hr⟩ := holdLdw_eq { s with script := rest }
    exact absurd (congrArg State.phase (ht.trans hr)) hne
  | idle _ hblock _ _ =>
    obtain ⟨-, -, -, -, -, hphase, -⟩ := hblock
    exact absurd hphase hne

/-- Settles O46: a phase change is a reset, or the instruction that the step runs follows its edge. -/
theorem phaseChangesFollowTheStateMachine : Obligations.PhaseChangesFollowTheStateMachine := by
  intro s t h hne
  have hcases : Edge (running s) s.phase t.phase ∨ (Resetting s ∧ t.phase = Phase.init) := by
    by_cases hreset : Resetting s
    · obtain ⟨rest, hs⟩ := List.head?_eq_some_iff.mp hreset
      obtain rfl := Host.Outcome.next.inj ((step_of_reset hs).symm.trans h)
      exact .inr ⟨hreset, resetBlock_phase _⟩
    · exact .inl (step_edge h hne hreset)
  simpa only [Edge, or_assoc] using hcases

end Sys2Proof
end

section
/-! The stops of LDW (spec/20_memory.md R56, R62, R63; spec/41_padding.md R126): the LDW that goes on after it was held, the
first unanswered read, the reads made before it, and the blocks the message does not have. -/

namespace Sys2Proof

open Sys2Proof.Machine Sys2Proof.Safety

/-- Settles O14: the next state of an LDW is the same rule whether it begins or goes on, and reads only what it does not
hold. -/
theorem heldLdwReadsOnlyTheRest : Obligations.HeldLdwReadsOnlyTheRest :=
  fun _ _ ht _ hphase hblk hanswer => exec_ldw_of_answers ht hphase hblk hanswer

/-! ### The first unanswered read -/

theorem ldwAnswer_eq_none_iff (s : State) (k : Nat) :
    ldwAnswer s k = none ↔ s.held.length ≤ k ∧ Memory.read s.source (ldwAddress s + k) = none := by
  rw [ldwAnswer, Option.or_eq_none_iff, List.getElem?_eq_none_iff]

/-- LDW waits for byte `k` of its word: a message byte with no answer, after bytes that are answered with `m` (R56). -/
structure WaitsAt (s : State) (m : Nat → Byte) (k : Nat) : Prop where
  lt_four : k < 4
  lt_len : ldwAddress s + k < s.len.toNat
  answered : ∀ j, j < k → ldwAnswer s j = some (m (ldwAddress s + j))
  silent : ldwAnswer s k = none

namespace WaitsAt

variable {s : State} {m : Nat → Byte} {k : Nat}

/-- An LDW that has answers before an unanswered byte waits there, whatever the answers are. -/
theorem of_isSome (h4 : k < 4) (hlen : ldwAddress s + k < s.len.toNat) (hsome : ∀ j, j < k → (ldwAnswer s j).isSome = true)
    (hnone : ldwAnswer s k = none) : ∃ m, WaitsAt s m k := by
  refine ⟨fun i => (ldwAnswer s (i - ldwAddress s)).getD 0, h4, hlen, fun j hj => ?_, hnone⟩
  obtain ⟨b, hb⟩ := Option.isSome_iff_exists.mp (hsome j hj)
  rw [Nat.add_sub_cancel_left, hb, Option.getD_some]

theorem length_held_le (h : WaitsAt s m k) : s.held.length ≤ k := ((ldwAnswer_eq_none_iff s k).mp h.silent).1

/-- A byte before the unanswered one is had, with the reads up to it. -/
theorem pmWordByte_of_lt (h : WaitsAt s m k) {j : Nat} (hj : j < k) :
    pmWordByte (s.withReads (ldwReads s m j)) (ldwAddress s) j =
      .next (Reference.pm s.len.toNat m (ldwAddress s + j), s.withReads (ldwReads s m (j + 1))) := by
  have hroom := add_nine_le_blocks s.len.toNat
  have hlen := h.lt_len
  exact pmWordByte_eq_pm (by omega) fun _ => h.answered j hj

/-- The unanswered byte is the one the source is silent about. -/
theorem pmWordByte_eq_fault (h : WaitsAt s m k) :
    pmWordByte (s.withReads (ldwReads s m k)) (ldwAddress s) k = .fault (.sourceSilent (ldwAddress s + k)) := by
  obtain ⟨hheld, hread⟩ := (ldwAnswer_eq_none_iff s k).mp h.silent
  rw [pmWordByte_of_not_held (held_withReads_ldwReads_eq_none m hheld)]
  exact (pmByte_of_message (s := s.withReads _) h.lt_len).trans (memRead_of_silence hread)

/-- The word stops at the unanswered byte, the bytes being evaluated in ascending order (R58). -/
theorem pmWord_eq_fault (h : WaitsAt s m k) : pmWord s (ldwAddress s) = .fault (.sourceSilent (ldwAddress s + k)) := by
  have hnone : s.withReads (ldwReads s m 0) = s := by rw [ldwReads_of_le m (Nat.zero_le _), State.withReads_nil]
  have hbyte := fun j => h.pmWordByte_of_lt (j := j)
  have hfirst := hbyte 0
  have hstop := h.pmWordByte_eq_fault
  have hk := h.lt_four
  rw [hnone] at hfirst
  rw [pmWord]
  interval_cases k
  · rw [hnone] at hstop
    simp only [hstop, andThen_fault]
  · simp only [hfirst (by decide), hstop, andThen_next, andThen_fault]
  · simp only [hfirst (by decide), hbyte 1 (by decide), hstop, andThen_next, andThen_fault, Nat.reduceAdd]
  · simp only [hfirst (by decide), hbyte 1 (by decide), hbyte 2 (by decide), hstop, andThen_next, andThen_fault,
      Nat.reduceAdd]

theorem exec_ldw_eq_fault (h : WaitsAt s m k) (hphase : s.phase = Phase.scheduling) (ht : s.t.toNat ≤ 15) :
    exec .ldw s = .fault (.sourceSilent (ldwAddress s + k)) := by
  rw [exec, execLdw, dif_pos ⟨hphase, ht⟩, h.pmWord_eq_fault, andThen_fault]

end WaitsAt

/-- Settles O15: the bytes before the silent address are had, and the read there is not answered. -/
theorem ldwIsStuckAtASilentAddress : Obligations.LdwIsStuckAtASilentAddress := by
  intro s k hphase ht hk hlen hsome hnone
  obtain ⟨m, hwaits⟩ := WaitsAt.of_isSome hk hlen hsome hnone
  exact hwaits.exec_ldw_eq_fault hphase ht

/-! ### The reads that a held LDW has made -/

/-- Reads that are all below the length answer the bytes of the run. -/
theorem map_mdata_reads {len a n : Nat} (m : Nat → Byte) (h : a + n ≤ len) :
    (Reference.reads len m a n).map (·.mdata) = (List.range n).map fun j => m (a + j) := by
  have hall : (List.range' a n).filter (· < len) = List.range' a n := by
    refine List.filter_eq_self.mpr fun i hi => decide_eq_true ?_
    have := (List.mem_range'_1.mp hi).2
    omega
  rw [Reference.reads, hall, List.range'_eq_map_range, List.map_map, List.map_map]
  rfl

namespace WaitsAt

variable {s : State} {m : Nat → Byte} {k : Nat}

/-- From byte `j` on, what can be had of the word are the bytes before the unanswered one. -/
theorem pmWordSoFar_eq (h : WaitsAt s m k) : ∀ n j, j ≤ k → k < j + n →
    pmWordSoFar (s.withReads (ldwReads s m j)) (ldwAddress s) j n = s.withReads (ldwReads s m k)
  | 0, _, hle, hlt => absurd hlt hle.not_gt
  | n + 1, j, hle, hlt => by
    rcases hle.lt_or_eq with hj | rfl
    · simp only [pmWordSoFar, h.pmWordByte_of_lt hj]
      exact h.pmWordSoFar_eq n (j + 1) hj (by omega)
    · simp only [pmWordSoFar, h.pmWordByte_eq_fault]

theorem holdLdw_eq_withReads (h : WaitsAt s m k) : holdLdw s = s.withReads (ldwReads s m k) := by
  have hstart := h.pmWordSoFar_eq 4 0 (Nat.zero_le k) (by have := h.lt_four; omega)
  rwa [ldwReads_of_le m (Nat.zero_le _), State.withReads_nil] at hstart

/-- The bytes a held LDW has are the answers before the unanswered byte, oldest first (R62). -/
theorem held_withReads (h : WaitsAt s m k) :
    (s.withReads (ldwReads s m k)).held = (List.range k).map fun j => m (ldwAddress s + j) := by
  have hlen := h.lt_len
  have hheld := h.length_held_le
  have hold : s.held = (List.range s.held.length).map fun j => m (ldwAddress s + j) := by
    refine List.ext_getElem (by simp) fun j hj _ => ?_
    have hanswer := h.answered j (by omega)
    rw [ldwAnswer, List.getElem?_eq_getElem hj, Option.some_or, Option.some.injEq] at hanswer
    simpa using hanswer
  have hnew : (ldwReads s m k).map (·.mdata) =
      (List.range (k - s.held.length)).map fun j => m (ldwAddress s + (s.held.length + j)) := by
    rw [ldwReads, map_mdata_reads m (by omega)]
    simp only [Nat.add_assoc]
  calc (s.withReads (ldwReads s m k)).held
      = s.held ++ (ldwReads s m k).map (·.mdata) := rfl
    _ = (List.range (s.held.length + (k - s.held.length))).map fun j => m (ldwAddress s + j) := by
        rw [List.range_add, List.map_append, ← hold, hnew, List.map_map]
        rfl
    _ = (List.range k).map fun j => m (ldwAddress s + j) := by rw [Nat.add_sub_cancel' hheld]

/-- The whole state in which LDW waits: the reads before the unanswered byte are made, and no register changes. -/
theorem holdLdw_eq_held (h : WaitsAt s m k) :
    holdLdw s = { s with
      held := (List.range k).map fun j => m (ldwAddress s + j)
      transfers := s.transfers ++ ldwReads s m k } := by
  rw [h.holdLdw_eq_withReads, ← h.held_withReads]

/-- Where LDW waits stays where it waits once it holds the bytes before (R56, R63). -/
theorem withReads (h : WaitsAt s m k) : WaitsAt (s.withReads (ldwReads s m k)) m k := by
  obtain ⟨-, hread⟩ := (ldwAnswer_eq_none_iff s k).mp h.silent
  refine ⟨h.lt_four, h.lt_len, fun j hj => ?_, (ldwAnswer_eq_none_iff _ k).mpr ⟨?_, hread⟩⟩
  · rw [ldwAnswer, h.held_withReads, List.getElem?_map, List.getElem?_range hj, Option.map_some, Option.some_or]
    rfl
  · rw [h.held_withReads, List.length_map, List.length_range]

/-- An LDW that stops on a silent source waits at its first unanswered byte. -/
theorem of_execLdw_fault {s : State} {f : Fault} (h : execLdw s = .fault f) :
    ∃ m k, WaitsAt s m k ∧ f = .sourceSilent (ldwAddress s + k) := by
  obtain ⟨⟨hphase, ht⟩, k, hk, -, hlen, hread, hheld⟩ := execLdw_fault h
  obtain ⟨r, hr⟩ := holdLdw_eq s
  have hle : s.held.length ≤ k := by
    rw [hr, List.length_append] at hheld
    omega
  have hex : ∃ k, ldwAnswer s k = none := ⟨k, (ldwAnswer_eq_none_iff s k).mpr ⟨hle, hread⟩⟩
  have hfirst : Nat.find hex ≤ k := Nat.find_min' hex ((ldwAnswer_eq_none_iff s k).mpr ⟨hle, hread⟩)
  obtain ⟨m, hwaits⟩ := WaitsAt.of_isSome (k := Nat.find hex) (by omega) (by omega)
    (fun j hj => Option.ne_none_iff_isSome.mp (Nat.find_min hex hj)) (Nat.find_spec hex)
  have hstop := hwaits.exec_ldw_eq_fault hphase ht
  exact ⟨m, _, hwaits, Host.Outcome.fault.inj (h.symm.trans hstop)⟩

end WaitsAt

/-- Settles O16: `pass` turns the stuck LDW into the one that is held, with the reads before the unanswered byte. -/
theorem heldLdwKeepsTheReadsItHasMade : Obligations.HeldLdwKeepsTheReadsItHasMade := by
  intro s m k rest hs hphase ht hk hlen hanswered hnone
  have hwaits : WaitsAt { s with script := rest } m k := ⟨hk, hlen, hanswered, hnone⟩
  have hselected : selected { s with script := rest } = .ok .ldw := selected_eq_ok_iff.mpr ⟨hphase, ht⟩
  have hengine : engineStep { s with script := rest } = .fault (.sourceSilent (ldwAddress s + k)) :=
    (engineStep_of_selected hselected).trans (hwaits.exec_ldw_eq_fault hphase ht)
  have hstep : step s = .next (holdLdw { s with script := rest }) := by
    simp only [step_of_script_cons hs, eventStep, hengine]
  rw [hstep, hwaits.holdLdw_eq_held]
  rfl

/-! ### Blocks outside the message -/

/-- Settles O17: the first byte of the word is past the length field, in none of the regions of R126. -/
theorem ldwOutsideThePaddedMessageIsRefused : Obligations.LdwOutsideThePaddedMessageIsRefused := by
  intro s hphase ht hblk
  have hroom := add_nine_le_blocks s.len.toNat
  have hout : 64 * nblk s.len.toNat ≤ ldwAddress s := by
    unfold ldwAddress
    omega
  have hbyte : pmWordByte s (ldwAddress s) 0 = .refused .outsidePaddedMessage := by
    rw [pmWordByte_of_padding (by omega), pmByte, if_neg (by omega), if_neg (by omega), if_neg (by omega), dif_neg (by omega)]
  rw [exec, execLdw, dif_pos ⟨hphase, ht⟩, pmWord, hbyte, andThen_refused, andThen_refused]

end Sys2Proof
end

section
/-! Where the engine has no step or cannot go on (spec/30_encoding.md R89, R91; spec/60_exceptions.md R200, R203;
spec/70_reset_and_hazards.md R231, R232): quiescent phases, unreachable sequencer words, and what a stuck engine keeps. -/

namespace Sys2Proof

open Sys2Proof.Machine Sys2Proof.Safety

/-! ### Quiescent phases -/

theorem selected_of_quiescent {s : State} (hphase : s.phase = Phase.init ∨ s.phase = Phase.finalized) :
    selected s = .error .quiescentPhase :=
  decodeSeq_of_quiescent _ _ hphase

/-- Settles O37: a quiescent phase has no row of R87, and an engine with no micro-operation is idle. -/
theorem quiescentPhaseIdles : Obligations.QuiescentPhaseIdles := by
  intro s hphase
  have hsel := selected_of_quiescent hphase
  exact ⟨hsel, fun hs => (step_of_script_nil hs).trans (engineStep_of_quiescent hsel)⟩

/-! ### Unreachable sequencer words -/

/-- The control registers that form an unreachable sequencer word (R91). -/
def Unreachable (s : State) : Prop :=
  5 ≤ s.phase.toNat ∨ (s.phase = Phase.scheduling ∧ 65 ≤ s.t.toNat) ∨ (s.phase = Phase.compressing ∧ 66 ≤ s.t.toNat)

theorem Unreachable.selected_eq {s : State} (h : Unreachable s) : selected s = .error .unreachableWord := by
  unfold Unreachable at h
  refine decodeSeq_of_unreachable _ ?_ ?_ ?_ ?_ <;> grind

theorem unreachable_of_selected {s : State} (h : selected s = .error .unreachableWord) : Unreachable s := by
  have hcodes : ∀ p : PhaseCode, p = 0#3 ∨ p = 1#3 ∨ p = 2#3 ∨ p = 3#3 ∨ p = 4#3 ∨ 5 ≤ p.toNat := by decide
  rw [selected, seqWord, decodeSeq_mkSeqWord] at h
  rcases hcodes s.phase with hp | hp | hp | hp | hp | hp
  · simp [hp] at h
  · simp [hp] at h
  · refine .inr (.inl ⟨hp, Nat.lt_of_not_le fun hle => ?_⟩)
    by_cases ht : s.t.toNat = 64
    · simp [hp, ht] at h
    · grind
  · refine .inr (.inr ⟨hp, Nat.lt_of_not_le fun hle => ?_⟩)
    cases hlast : last s <;> grind
  · simp [hp] at h
  · exact .inl hp

theorem engineStep_of_unreachable {s : State} (h : selected s = .error .unreachableWord) :
    engineStep s = .fault .stuckSequencer := by
  rw [engineStep, h]

theorem ready_eq_false_of_unreachable {s : State} (h : selected s = .error .unreachableWord) : ready s = false :=
  Bool.eq_false_iff.mpr fun hready => nomatch h.symm.trans (selected_of_quiescent ((ready_eq s).mp hready))

/-- The invariant keeps PHASE and T inside the rows of R87 and the quiescent phases (R43). -/
theorem not_unreachable_of_invariant {s : State} (hinv : Invariant s) : ¬Unreachable s := by
  obtain ⟨-, hphase, -, hsched, hcompr, -⟩ := hinv
  rintro (h | ⟨h, ht⟩ | ⟨h, ht⟩)
  · omega
  · have := (hsched h).1
    omega
  · have := (hcompr h).1
    omega

/-- Settles O38: such a word matches no row, READY asks for a quiescent phase, and the engine's fault is the step of every
script but a reset. -/
theorem unreachableSequencerWordIsStuck : Obligations.UnreachableSequencerWordIsStuck := by
  intro s h
  have hsel := Unreachable.selected_eq h
  have hready := ready_eq_false_of_unreachable hsel
  have hengine := engineStep_of_unreachable hsel
  refine ⟨hsel, hready, fun hinv => not_unreachable_of_invariant hinv h, fun hs => ?_, fun w rest hs => ?_, fun rest hs => ?_⟩
  · rw [step_of_script_nil hs, hengine]
  · rw [step_of_held_command hready hs, hengine]
  · exact ⟨_, step_of_reset hs, resetBlock_phase _⟩

/-! ### A held step that a reset abandons -/

theorem engineStep_of_waitsAt {s : State} {m : Nat → Byte} {k : Nat} (hsel : Selects .ldw s) (h : WaitsAt s m k) :
    engineStep s = .fault (.sourceSilent (ldwAddress s + k)) :=
  (engineStep_of_selected (selected_eq_ok_iff.mpr hsel)).trans (h.exec_ldw_eq_fault hsel.1 hsel.2)

/-- A stuck engine stays as it is, or holds the LDW with the reads it can make; either way it is stuck for the same reason
(R56, R91). -/
theorem step_pass_of_stuck {s : State} {rest : List HostEvent} {f : Fault} (hs : s.script = .pass :: rest)
    (h : engineStep s = .fault f) :
    ∃ r, step s = .next ({ s with script := rest }.withReads r) ∧
      engineStep ({ s with script := rest }.withReads r) = .fault f := by
  rw [step_of_script_cons hs]
  obtain ⟨hsel, rfl⟩ | ⟨hsel, hldw⟩ := engineStep_fault h
  · have hstuck : engineStep { s with script := rest } = .fault .stuckSequencer := engineStep_of_unreachable hsel
    refine ⟨[], ?_⟩
    rw [State.withReads_nil]
    exact ⟨by simp only [eventStep, hstuck], hstuck⟩
  · obtain ⟨m, k, hwaits, rfl⟩ := WaitsAt.of_execLdw_fault hldw
    have hsel : Selects .ldw s := selected_eq_ok_iff.mp hsel
    have hwaits : WaitsAt { s with script := rest } m k :=
      ⟨hwaits.lt_four, hwaits.lt_len, hwaits.answered, hwaits.silent⟩
    have hstuck : engineStep { s with script := rest } = .fault (.sourceSilent (ldwAddress s + k)) :=
      engineStep_of_waitsAt hsel hwaits
    refine ⟨_, ?_, engineStep_of_waitsAt hsel hwaits.withReads⟩
    simp only [eventStep, hstuck, hwaits.holdLdw_eq_withReads]

/-- Settles O39: the stuck engine waits with the reads it could make, and the reset that follows clears what is held. -/
theorem resetAbandonsAHeldStep : Obligations.ResetAbandonsAHeldStep := by
  intro s rest f hs h
  obtain ⟨r, hstep, hstuck⟩ := step_pass_of_stuck hs h
  exact ⟨_, _, hstep, sameBlock_withReads _ _, rfl, rfl, List.prefix_append _ _, hstuck, step_of_reset rfl, resetBlock_phase _,
    resetBlock_h _, resetBlock_held _, resetBlock_script _, resetBlock_source _, resetBlock_transfers _⟩

/-! ### The only stop of the invariant -/

/-- Every selected micro-operation but LDW completes. -/
theorem exec_completes_of_selects {i : Instr} {s : State} (h : Selects i s) (hne : i ≠ .ldw) : ∃ t, exec i s = .next t := by
  cases i with
  | init => exact h.elim
  | start n => exact h.elim
  | begin => exact ⟨_, if_pos h⟩
  | ldw => exact absurd rfl hne
  | exp => exact ⟨_, dif_pos h⟩
  | seed => exact ⟨_, if_pos h⟩
  | rnd => exact ⟨_, dif_pos h⟩
  | fold => exact ⟨_, if_pos h⟩
  | next => exact ⟨_, if_pos h⟩
  | ser => exact ⟨_, if_pos h⟩

theorem exec_start_completes {s : State} (hready : ready s = true) (n : Nat) : ∃ t, exec (.start n) s = .next t := by
  rw [exec, execStart, if_pos hready]
  split_ifs <;> exact ⟨_, rfl⟩

/-- Every accepted command completes. -/
theorem transferCommand_completes {s : State} (hready : ready s = true) (w : CmdWord) :
    ∃ t, transferCommand w s = .next t := by
  rw [transferCommand, decodeCmd_eq]
  split_ifs
  · exact ⟨_, exec_init_of_ready hready⟩
  · exact exec_start_completes hready _
  · exact ⟨_, rfl⟩

/-- The step goes on, or waits for a message byte that the source does not answer. -/
def GoesOnOrWaits (s : State) (o : Result State) : Prop :=
  (∃ t, o = .next t) ∨ ∃ a, o = .fault (.sourceSilent a) ∧ a < s.len.toNat ∧ Memory.read s.source a = none

theorem execLdw_goesOnOrWaits {s : State} (hsel : Selects .ldw s) (hblk : s.blk.toNat < nblk s.len.toNat) :
    GoesOnOrWaits s (execLdw s) := by
  cases h : execLdw s with
  | next t => exact .inl ⟨t, rfl⟩
  | fault f =>
    obtain ⟨-, k, -, rfl, hlen, hread, -⟩ := execLdw_fault h
    exact .inr ⟨_, rfl, hlen, hread⟩
  | refused r =>
    have hout := (execLdw_refused hsel h).2
    have hin := ldwAddress_add_lt hsel.2 hblk (k := 3) (by decide)
    omega

theorem engineStep_goesOnOrWaits {s : State} (hinv : Invariant s) : GoesOnOrWaits s (engineStep s) := by
  cases hsel : selected s with
  | ok i =>
    have hselects := selected_eq_ok_iff.mp hsel
    rw [engineStep_of_selected hsel]
    by_cases hi : i = .ldw
    · subst hi
      obtain ⟨-, -, -, hsched, -⟩ := hinv
      exact execLdw_goesOnOrWaits hselects (hsched hselects.1).2.1
    · exact .inl (exec_completes_of_selects hselects hi)
  | error r =>
    cases r with
    | unreachableWord => exact absurd (unreachable_of_selected hsel) (not_unreachable_of_invariant hinv)
    | reservedOpcode => exact .inl ⟨s, by rw [engineStep, hsel]⟩
    | quiescentPhase => exact .inl ⟨s, engineStep_of_quiescent hsel⟩

/-- Settles O45: every event but an engine step completes, and so does a `pass`; the engine steps only where the event is
held. -/
theorem theOnlyStopIsASilentSource : Obligations.TheOnlyStopIsASilentSource := by
  intro s hinv
  have hengine : GoesOnOrWaits s (engineStep s) := engineStep_goesOnOrWaits hinv
  change GoesOnOrWaits s (step s)
  cases hs : s.script with
  | nil => rwa [step_of_script_nil hs]
  | cons e rest =>
    cases e with
    | command w =>
      cases hready : ready s with
      | false => rwa [step_of_held_command hready hs]
      | true => exact .inl (step_of_command hready hs ▸ transferCommand_completes (s := { s with script := rest }) hready w)
    | wait =>
      rw [step_of_script_cons hs, eventStep]
      split_ifs
      · exact .inl ⟨_, rfl⟩
      · exact hengine
    | pass =>
      have hpass : GoesOnOrWaits { s with script := rest } (engineStep { s with script := rest }) :=
        engineStep_goesOnOrWaits hinv
      rw [step_of_script_cons hs, eventStep]
      obtain ⟨t, ht⟩ | ⟨a, ha, -⟩ := hpass
      · exact .inl ⟨t, by rw [ht]⟩
      · exact .inl ⟨holdLdw { s with script := rest }, by rw [ha]⟩
    | _ => exact .inl ⟨_, step_of_script_cons hs⟩

end Sys2Proof
end

section
/-! The host's part (spec/45_host_commands.md R170 to R177; spec/60_exceptions.md R201, R202): START, and the script of a
hash. -/

namespace Sys2Proof

open Sys2Proof.Machine Sys2Proof.Safety

/-! ### START -/

theorem decodeCmd_start (l : MsgLen) : decodeCmd (mkCmdWord 0b010#3 l) = .ok (.start l.toNat) := by
  rw [decodeCmd_eq, cmdOp_mkCmdWord, if_neg (by decide), if_pos rfl, cmdArg_mkCmdWord]

/-- The whole next state of a START that is not discarded (R172). -/
theorem exec_start_of_init {s : State} {n : Nat} (hphase : s.phase = Phase.init) (hn : n < 2 ^ 61) :
    exec (.start n) s = .next { s with len := BitVec.ofNat 61 n, phase := Phase.paddingDone } := by
  rw [exec, execStart, if_pos (ready_of_init hphase)]
  exact if_pos ⟨hphase, hn⟩

/-- A START outside phase INIT, or of a length that no word carries, is discarded (R90, R172). -/
theorem exec_start_of_discarded {s : State} {n : Nat} (hready : ready s = true) (hnot : ¬(s.phase = Phase.init ∧ n < 2 ^ 61)) :
    exec (.start n) s = .next s := by
  rw [exec, execStart, if_pos hready]
  exact if_neg hnot

/-- Settles O10: phase INIT accepts every length of ARG, and FINALIZED is another phase. -/
theorem startLatchesLengthInPhaseInit : Obligations.StartLatchesLengthInPhaseInit := by
  refine fun s l => ⟨decodeCmd_start l, fun hphase => ⟨?_, rfl, rfl⟩, fun hphase => ?_⟩
  · rw [exec_start_of_init hphase l.isLt, BitVec.ofNat_toNat, BitVec.setWidth_eq]
  · exact exec_start_of_discarded ((ready_eq s).mpr (.inr hphase)) fun h => absurd (hphase.symm.trans h.1) (by decide)

/-- Settles O11: the length fails the test of START, not of the decoder. -/
theorem startOfInexpressibleLengthChangesNothing : Obligations.StartOfInexpressibleLengthChangesNothing :=
  fun _ _ hready hn => ⟨decide_eq_false hn.not_gt, exec_start_of_discarded hready fun h => h.2.not_ge hn⟩

/-! ### Before START -/

/-- The script of a hash of `n` bytes: INIT, START n, WAIT, read DIGEST (R95). -/
def hashEvents (n : Nat) : List HostEvent :=
  [.command (mkCmdWord 0b001#3 0#61), .command (mkCmdWord 0b010#3 (BitVec.ofNat 61 n)), .wait, .readDigest]

/-- What the host starts is the script of the whole length, which a command carries (R177, R202). -/
theorem hashScript_eq_ok {source : Memory} {n : Nat} {l : List HostEvent} (h : hashScript source n = .ok l) :
    n < 2 ^ 61 ∧ l = hashEvents n := by
  unfold hashScript at h
  split_ifs at h with hlong hall
  exact ⟨Nat.lt_of_not_le hlong, (Except.ok.inj h).symm⟩

theorem decodeCmd_start_ofNat {n : Nat} (hn : n < 2 ^ 61) :
    decodeCmd (mkCmdWord 0b010#3 (BitVec.ofNat 61 n)) = .ok (.start n) := by
  rw [decodeCmd_start, BitVec.toNat_ofNat, Nat.mod_eq_of_lt hn]

/-- Settles O41: the length is tested first, then the source, and what is issued decodes to INIT and to START of the length.
-/
theorem hostStopsOnInputsTheBlockCannotHash : Obligations.HostStopsOnInputsTheBlockCannotHash := by
  refine fun source n => ⟨fun hlong => if_pos hlong, fun i hn hi hsilent => ?_, fun hn hall => ?_⟩
  · have hmissing : ¬∀ i, i < n → (Memory.read source i).isSome = true := fun hall => by simpa [hsilent] using hall i hi
    exact (if_neg hn.not_ge).trans (if_neg hmissing)
  · exact ⟨_, _, decodeCmd_init _, decodeCmd_start_ofNat hn, (if_neg hn.not_ge).trans (if_pos hall)⟩

end Sys2Proof
end

section
/-! Control registers, status signals and constants (spec/10_state.md R23 to R43; spec/20_memory.md R55; spec/40_word_ops.md
R114; spec/41_padding.md R121 to R123). -/

namespace Sys2Proof

open Sys2Proof.Machine Sys2Proof.Safety

/-! ### Signals -/

/-- Settles O32: the three signals by their own rules. -/
theorem statusSignalsAreFunctionsOfControlRegisters : Obligations.StatusSignalsAreFunctionsOfControlRegisters :=
  fun s => ⟨ready_eq s, done_eq s, last_eq s⟩

/-- Settles O23: NEXT is enabled by LAST = 0 alone, and its sum is modulo 2^56. -/
theorem nextWithLastZeroAddsInFiftySixBits : Obligations.NextWithLastZeroAddsInFiftySixBits := by
  intro s hphase ht hlast
  have hsum : s.blk + 1#56 = BitVec.ofNat 56 ((s.blk.toNat + 1) % 2 ^ 56) := BitVec.eq_of_toNat_eq (by simp)
  rw [exec_next_of_not_last hphase ht hlast, hsum]

/-! ### The state after reset -/

/-- Settles O36: PHASE and H are the reset values of R41, and the signals follow from PHASE. -/
theorem resetStateHasTheStatedValues : Obligations.ResetStateHasTheStatedValues :=
  ⟨rfl, rfl, ready_of_init rfl, done_of_init rfl⟩

/-- Settles O43: the rule for phase INIT, where H is IV and nothing is held. -/
theorem resetMeetsTheInvariant : Obligations.ResetMeetsTheInvariant :=
  invariant_of_iv Memory.wf_reset (.inl rfl) rfl rfl

/-! ### Changes of the source -/

/-- Settles O40: the two events are a write and an erasure of the source, which are read back. -/
theorem supplyChangesOneAnswerOnly : Obligations.SupplyChangesOneAnswerOnly :=
  fun s _ _ _ =>
    ⟨fun hs => ⟨_, step_of_script_cons hs, sameBlock_refl s, rfl, rfl, rfl, Memory.read_write_same _ _ _,
        fun _ => Memory.read_write_other _ _⟩,
      fun hs => ⟨_, step_of_script_cons hs, sameBlock_refl s, rfl, rfl, rfl, Memory.read_erase_same _ _,
        fun _ => Memory.read_erase_other _⟩⟩

/-! ### Block and zero counts -/

/-- Settles O29: NBLK rounds LEN + 9 up to whole blocks, and ZPAD is what is left of them. -/
theorem blockCountIsLeastAndInRange : Obligations.BlockCountIsLeastAndInRange := by
  intro l hl
  have hroom := add_nine_le_blocks l
  unfold zpad
  unfold nblk at *
  exact ⟨hroom, fun n hn => by omega, by omega, by omega, by omega, by omega, by omega⟩

/-! ### The constant tables -/

/-- A number up to 311 is prime when no smaller number from 2 to 17 divides it, as 18^2 is more than 311. -/
theorem prime_iff_of_le {n : Nat} (hn : n ≤ 311) : n.Prime ↔ 2 ≤ n ∧ ∀ m < 18, 2 ≤ m → m < n → ¬m ∣ n := by
  constructor
  · intro hprime
    refine ⟨hprime.two_le, fun m _ hm hlt hdvd => ?_⟩
    rcases hprime.eq_one_or_self_of_dvd m hdvd with h | h <;> omega
  · rintro ⟨htwo, hnone⟩
    refine Nat.prime_def_le_sqrt.mpr ⟨htwo, fun m hm hsqrt => hnone m ?_ hm (hsqrt.trans_lt (Nat.sqrt_lt_self htwo))⟩
    exact hsqrt.trans_lt (Nat.sqrt_lt.mpr (by omega))

/-- Trial division finds exactly the listed primes among the 312 = 24 · 13 numbers. -/
theorem mem_primes_iff_trial_division : ∀ (a : Fin 24) (b : Fin 13), 13 * a.val + b.val ∈ Reference.primes ↔
    2 ≤ 13 * a.val + b.val ∧ ∀ m < 18, 2 ≤ m → m < 13 * a.val + b.val → ¬m ∣ 13 * a.val + b.val := by
  decide

theorem mem_primes_iff_of_le {n : Nat} (hn : n ≤ 311) : n ∈ Reference.primes ↔ n.Prime := by
  have htrial := mem_primes_iff_trial_division ⟨n / 13, by omega⟩ ⟨n % 13, by omega⟩
  rw [Nat.div_add_mod] at htrial
  rw [htrial, prime_iff_of_le hn]

theorem mem_primes_iff (n : Nat) : n ∈ Reference.primes ↔ n.Prime ∧ n ≤ 311 := by
  have hbound : ∀ p ∈ Reference.primes, p ≤ 311 := by decide
  constructor
  · exact fun hmem => ⟨(mem_primes_iff_of_le (hbound n hmem)).mp hmem, hbound n hmem⟩
  · exact fun ⟨hprime, hle⟩ => (mem_primes_iff_of_le hle).mpr hprime

/-- A table word is the root modulo 2^32 once the root's whole part is put above it. -/
theorem eq_ofNat_whole_add (c : Nat) (x : Word) : x = BitVec.ofNat 32 (2 ^ 32 * c + x.toNat) := by
  apply BitVec.eq_of_toNat_eq
  rw [BitVec.toNat_ofNat, Nat.mul_add_mod, Nat.mod_eq_of_lt x.isLt]

/-- Each word of IV is the fraction of a square root whose whole part is at most 4 (R114). -/
theorem iv_fractions : ∀ i : Fin 8, ∃ c ≤ 4,
    (2 ^ 32 * c + iv[i].toNat) ^ 2 ≤ Reference.primes.getD i.val 0 * 2 ^ 64 ∧
    Reference.primes.getD i.val 0 * 2 ^ 64 < (2 ^ 32 * c + iv[i].toNat + 1) ^ 2 := by
  decide

/-- Each word of K is the fraction of a cube root whose whole part is at most 6 (R114). -/
theorem kTable_fractions : ∀ j : Fin 64, ∃ c ≤ 6,
    (2 ^ 32 * c + kTable[j].toNat) ^ 3 ≤ Reference.primes.getD j.val 0 * 2 ^ 96 ∧
    Reference.primes.getD j.val 0 * 2 ^ 96 < (2 ^ 32 * c + kTable[j].toNat + 1) ^ 3 := by
  decide

theorem primes_getElem? {i : Nat} (hi : i < 64) : Reference.primes[i]? = some (Reference.primes.getD i 0) := by
  have hlen : i < Reference.primes.length := hi
  rw [List.getD_eq_getElem _ _ hlen, List.getElem?_eq_getElem hlen]

/-- Settles O28: the primes by trial division, and each table word with its root's whole part. -/
theorem tablesAreTheRootsOfPrimes : Obligations.TablesAreTheRootsOfPrimes := by
  refine ⟨mem_primes_iff, by decide, fun i => ?_, fun j => ?_⟩
  · obtain ⟨c, -, hle, hlt⟩ := iv_fractions i
    exact ⟨_, _, primes_getElem? (by omega), hle, hlt, eq_ofNat_whole_add c _⟩
  · obtain ⟨c, -, hle, hlt⟩ := kTable_fractions j
    exact ⟨_, _, primes_getElem? j.isLt, hle, hlt, eq_ofNat_whole_add c _⟩

end Sys2Proof
end

section
/-! Control does not depend on data (spec/46_sequencer.md R195; spec/70_reset_and_hazards.md R252): two states that agree on
control and on where the source answers stay so, and stop alike. -/

namespace Sys2Proof

open Sys2Proof.Machine Sys2Proof.Safety

/-! ### Two outcomes alike -/

/-- Two parts of steps end alike: in related values, or for the same reason. -/
def Alike {α : Type} (R : α → α → Prop) : Result α → Result α → Prop
  | .next a, .next b => R a b
  | .fault f, .fault g => f = g
  | .refused q, .refused r => q = r
  | _, _ => False

namespace Alike

variable {α β : Type} {R : α → α → Prop} {Q : β → β → Prop}

theorem andThen {o o' : Result α} {f f' : α → Result β} (h : Alike R o o') (hf : ∀ a b, R a b → Alike Q (f a) (f' b)) :
    Alike Q (andThen o f) (andThen o' f') :=
  match o, o', h with
  | .next a, .next b, h => hf a b h
  | .fault _, .fault _, h => h
  | .refused _, .refused _, h => h

theorem ite {c c' : Prop} [Decidable c] [Decidable c'] {o o' p p' : Result α} (hc : c' ↔ c) (hyes : Alike R o o')
    (hno : Alike R p p') : Alike R (if c then o else p) (if c' then o' else p') := by
  by_cases h : c
  · rwa [if_pos h, if_pos (hc.mpr h)]
  · rwa [if_neg h, if_neg (mt hc.mp h)]

theorem dite {c c' : Prop} [Decidable c] [Decidable c'] {f : c → Result α} {f' : c' → Result α} {p p' : Result α}
    (hc : c' ↔ c) (hyes : ∀ h h', Alike R (f h) (f' h')) (hno : Alike R p p') :
    Alike R (if h : c then f h else p) (if h : c' then f' h else p') := by
  by_cases h : c
  · rw [dif_pos h, dif_pos (hc.mpr h)]
    exact hyes _ _
  · rwa [dif_neg h, dif_neg (mt hc.mp h)]

theorem cases {o o' : Result α} (h : Alike R o o') :
    (∃ a b, o = .next a ∧ o' = .next b ∧ R a b) ∨ (∃ f, o = .fault f ∧ o' = .fault f) ∨
      ∃ r, o = .refused r ∧ o' = .refused r :=
  match o, o', h with
  | .next a, .next b, h => .inl ⟨a, b, rfl, rfl, h⟩
  | .fault f, .fault _, h => .inr (.inl ⟨f, rfl, congrArg _ (show _ = _ from h).symm⟩)
  | .refused r, .refused _, h => .inr (.inr ⟨r, rfl, congrArg _ (show _ = _ from h).symm⟩)

theorem fault_iff {o o' : Result α} (h : Alike R o o') (f : Fault) : o = .fault f ↔ o' = .fault f := by
  obtain ⟨a, b, rfl, rfl, -⟩ | ⟨g, rfl, rfl⟩ | ⟨r, rfl, rfl⟩ := h.cases <;> simp

theorem refused_iff {o o' : Result α} (h : Alike R o o') (r : Refusal) : o = .refused r ↔ o' = .refused r := by
  obtain ⟨a, b, rfl, rfl, -⟩ | ⟨f, rfl, rfl⟩ | ⟨q, rfl, rfl⟩ := h.cases <;> simp

theorem rel_of_next {o o' : Result α} {a b : α} (h : Alike R o o') (ha : o = .next a) (hb : o' = .next b) : R a b := by
  subst ha hb
  exact h

end Alike

/-! ### States with the same control -/

/-- The two states agree on control, on how many bytes a held step has, on where the source answers, and on the addresses read
(R195). -/
structure SameControl (s s' : State) : Prop where
  phase : s'.phase = s.phase
  blk : s'.blk = s.blk
  t : s'.t = s.t
  len : s'.len = s.len
  script : s'.script = s.script
  held : s'.held.length = s.held.length
  answers : ∀ i, (Memory.read s'.source i).isSome = (Memory.read s.source i).isSome
  addresses : s'.transfers.map (·.maddr) = s.transfers.map (·.maddr)

namespace SameControl

variable {s s' : State}

theorem ready_eq (h : SameControl s s') : ready s' = ready s := by rw [ready, ready, h.phase]

theorem done_eq (h : SameControl s s') : done s' = done s := by rw [done, done, h.phase]

theorem last_eq (h : SameControl s s') : last s' = last s := by rw [last, last, h.blk, h.len]

theorem selected_eq (h : SameControl s s') : selected s' = selected s := by
  rw [selected, selected, seqWord, seqWord, h.last_eq, h.phase, h.t]

theorem ldwAddress_eq (h : SameControl s s') : ldwAddress s' = ldwAddress s := by rw [ldwAddress, ldwAddress, h.blk, h.t]

theorem withScript (h : SameControl s s') (rest : List HostEvent) :
    SameControl { s with script := rest } { s' with script := rest } :=
  ⟨h.phase, h.blk, h.t, h.len, rfl, h.held, h.answers, h.addresses⟩

/-- A change of control that both states make leaves them with the same control. -/
theorem withSequencer (h : SameControl s s') (p : PhaseCode) {b b' : BlkIdx} (hb : b' = b) (n : StepIdx) :
    SameControl (setSequencer s p b n) (setSequencer s' p b' n) :=
  ⟨rfl, hb, rfl, h.len, h.script, h.held, h.answers, h.addresses⟩

theorem advance (h : SameControl s s') : SameControl (advance s) (advance s') :=
  ⟨h.phase, h.blk, congrArg (· + 1#7) h.t, h.len, h.script, h.held, h.answers, h.addresses⟩

/-- The data registers are no part of control. -/
theorem withData (h : SameControl s s') (hs hs' : Vector Word 8) (w w' : Vector Word 64) (v v' : Vector Word 8)
    (d d' : Vector Byte 32) :
    SameControl { s with h := hs, w := w, v := v, digest := d } { s' with h := hs', w := w', v := v', digest := d' } :=
  ⟨h.phase, h.blk, h.t, h.len, h.script, h.held, h.answers, h.addresses⟩

/-! ### The message port -/

/-- A part of a step that gives a byte or a word with the state after it: control is the states' alone. -/
abbrev Paired {α : Type} (p p' : α × State) : Prop := SameControl p.2 p'.2

theorem memRead (h : SameControl s s') (a : Nat) : Alike Paired (memRead s a) (memRead s' a) := by
  have hsome := h.answers a
  cases hb : Memory.read s.source a with
  | none =>
    have hb' : Memory.read s'.source a = none := by simpa [hb] using hsome
    rw [memRead_of_silence hb, memRead_of_silence hb']
    exact rfl
  | some b =>
    obtain ⟨b', hb'⟩ : ∃ b', Memory.read s'.source a = some b' := by simpa [hb, Option.isSome_iff_exists] using hsome
    rw [memRead_of_answer hb, memRead_of_answer hb']
    exact ⟨h.phase, h.blk, h.t, h.len, h.script, by simp [h.held], h.answers, by simp [h.addresses]⟩

theorem pmByte (h : SameControl s s') (i : Nat) : Alike Paired (pmByte s i) (pmByte s' i) := by
  rw [Machine.pmByte, Machine.pmByte, h.len]
  split_ifs
  · exact h.memRead i
  · exact h
  · exact h
  · exact h
  · exact rfl

theorem pmWordByte (h : SameControl s s') (a k : Nat) : Alike Paired (pmWordByte s a k) (pmWordByte s' a k) := by
  by_cases hmsg : a + k < s.len.toNat
  · by_cases hheld : k < s.held.length
    · have hheld' : k < s'.held.length := h.held ▸ hheld
      rw [pmWordByte_of_held hmsg (List.getElem?_eq_getElem hheld),
        pmWordByte_of_held (h.len ▸ hmsg) (List.getElem?_eq_getElem hheld')]
      exact h
    · have hle := Nat.le_of_not_lt hheld
      rw [pmWordByte_of_not_held (List.getElem?_eq_none hle), pmWordByte_of_not_held (List.getElem?_eq_none (h.held ▸ hle))]
      exact h.pmByte _
  · have hle := Nat.le_of_not_lt hmsg
    rw [pmWordByte_of_padding hle, pmWordByte_of_padding (h.len ▸ hle)]
    exact h.pmByte _

theorem pmWord (h : SameControl s s') (a : Nat) : Alike Paired (pmWord s a) (pmWord s' a) :=
  (h.pmWordByte a 0).andThen fun _ _ h => (h.pmWordByte a 1).andThen fun _ _ h => (h.pmWordByte a 2).andThen fun _ _ h =>
    (h.pmWordByte a 3).andThen fun _ _ h => h

theorem pmWordSoFar (a : Nat) : ∀ (n k : Nat) {s s' : State}, SameControl s s' →
    SameControl (pmWordSoFar s a k n) (pmWordSoFar s' a k n)
  | 0, _, _, _, h => h
  | n + 1, k, s, s', h => by
    rw [Machine.pmWordSoFar, Machine.pmWordSoFar]
    obtain ⟨p, p', hp, hp', hnext⟩ | ⟨f, hp, hp'⟩ | ⟨r, hp, hp'⟩ := (h.pmWordByte a k).cases <;> rw [hp, hp']
    · exact pmWordSoFar a n (k + 1) hnext
    · exact h
    · exact h

theorem holdLdw (h : SameControl s s') : SameControl (holdLdw s) (holdLdw s') := by
  rw [Machine.holdLdw, Machine.holdLdw, h.ldwAddress_eq]
  exact pmWordSoFar _ 4 0 h

/-! ### The meanings -/

theorem execStart (h : SameControl s s') (n : Nat) : Alike SameControl (execStart n s) (execStart n s') := by
  refine .ite (by rw [h.ready_eq]) (.ite (by rw [h.phase]) ?_ h) rfl
  exact ⟨rfl, h.blk, h.t, rfl, h.script, h.held, h.answers, h.addresses⟩

theorem execLdw (h : SameControl s s') : Alike SameControl (execLdw s) (execLdw s') := by
  refine .dite (by rw [h.phase, h.t]) (fun _ _ => ?_) rfl
  rw [h.ldwAddress_eq]
  refine (h.pmWord _).andThen fun p p' (hp : SameControl p.2 p'.2) => ?_
  exact advance ⟨hp.phase, hp.blk, hp.t, hp.len, hp.script, rfl, hp.answers, hp.addresses⟩

theorem exec (h : SameControl s s') (i : Instr) : Alike SameControl (exec i s) (exec i s') := by
  have hdata := h.withData
  cases i with
  | init =>
    refine .ite (by rw [h.ready_eq]) ?_ rfl
    exact ⟨rfl, h.blk, h.t, h.len, h.script, h.held, h.answers, h.addresses⟩
  | start n => exact h.execStart n
  | begin => exact .ite (by rw [h.phase]) (h.withSequencer _ rfl _) rfl
  | ldw => exact h.execLdw
  | exp => exact .dite (by rw [h.phase, h.t]) (fun _ _ => (hdata ..).advance) rfl
  | seed => exact .ite (by rw [h.phase, h.t]) ((hdata ..).withSequencer _ h.blk _) rfl
  | rnd => exact .dite (by rw [h.phase, h.t]) (fun _ _ => (hdata ..).advance) rfl
  | fold =>
    refine .ite (by rw [h.phase, h.t]) ?_ rfl
    exact ⟨h.phase, h.blk, rfl, h.len, h.script, h.held, h.answers, h.addresses⟩
  | next => exact .ite (by rw [h.phase, h.t, h.last_eq]) (h.withSequencer _ (congrArg (· + 1#56) h.blk) _) rfl
  | ser =>
    refine .ite (by rw [h.phase, h.t, h.last_eq]) ?_ rfl
    exact ⟨rfl, h.blk, h.t, h.len, h.script, h.held, h.answers, h.addresses⟩

/-! ### The step -/

theorem engineStep (h : SameControl s s') : Alike SameControl (engineStep s) (engineStep s') := by
  rw [Machine.engineStep, Machine.engineStep, h.selected_eq]
  cases selected s with
  | ok i => exact h.exec i
  | error r =>
    cases r with
    | unreachableWord => exact rfl
    | reservedOpcode => exact h
    | quiescentPhase => exact h

theorem transferCommand (h : SameControl s s') (w : CmdWord) :
    Alike SameControl (transferCommand w s) (transferCommand w s') := by
  rw [Machine.transferCommand, Machine.transferCommand]
  cases decodeCmd w with
  | ok i => exact h.exec i
  | error r => exact h

/-- The engine of a `pass` steps, or waits with the same number of bytes held. -/
theorem pass (h : SameControl s s') (rest : List HostEvent) :
    Alike SameControl (eventStep .pass rest s) (eventStep .pass rest s') := by
  have hrest := h.withScript rest
  rw [eventStep, eventStep]
  obtain ⟨t, t', ht, ht', hnext⟩ | ⟨f, hf, hf'⟩ | ⟨r, hr, hr'⟩ := hrest.engineStep.cases
  · rw [ht, ht']
    exact hnext
  · rw [hf, hf']
    cases f with
    | sourceSilent a => exact hrest.holdLdw
    | stuckSequencer => exact hrest
  · rw [hr, hr']
    exact rfl

theorem withSource (h : SameControl s s') {m m' : Memory}
    (hm : ∀ i, (Memory.read m' i).isSome = (Memory.read m i).isSome) :
    SameControl { s with source := m } { s' with source := m' } :=
  ⟨h.phase, h.blk, h.t, h.len, h.script, h.held, hm, h.addresses⟩

theorem answers_write (h : SameControl s s') (a : Nat) (b : Byte) (i : Nat) :
    (Memory.read (Memory.write s'.source a b) i).isSome = (Memory.read (Memory.write s.source a b) i).isSome := by
  by_cases hia : i = a
  · rw [hia, Memory.read_write_same, Memory.read_write_same]
  · rw [Memory.read_write_other _ _ hia, Memory.read_write_other _ _ hia, h.answers]

theorem answers_erase (h : SameControl s s') (a i : Nat) :
    (Memory.read (Memory.erase s'.source a) i).isSome = (Memory.read (Memory.erase s.source a) i).isSome := by
  by_cases hia : i = a
  · rw [hia, Memory.read_erase_same, Memory.read_erase_same]
  · rw [Memory.read_erase_other _ hia, Memory.read_erase_other _ hia, h.answers]

/-- A step other than a reset keeps the two states alike in control (R195, R252). -/
theorem step (h : SameControl s s') (hreset : ¬Resetting s) : Alike SameControl (step s) (step s') := by
  cases hs : s.script with
  | nil =>
    rw [step_of_script_nil hs, step_of_script_nil (h.script.trans hs)]
    exact h.engineStep
  | cons e rest =>
    have hrest := h.withScript rest
    rw [step_of_script_cons hs, step_of_script_cons (h.script.trans hs)]
    cases e with
    | reset => exact absurd (congrArg List.head? hs) hreset
    | observe => exact ⟨h.phase, h.blk, h.t, h.len, rfl, h.held, h.answers, h.addresses⟩
    | readDigest => exact ⟨h.phase, h.blk, h.t, h.len, rfl, h.held, h.answers, h.addresses⟩
    | supply a b => exact hrest.withSource (h.answers_write a.toNat b)
    | withdraw a => exact hrest.withSource (h.answers_erase a.toNat)
    | command w => exact .ite (by rw [h.ready_eq]) (hrest.transferCommand w) h.engineStep
    | wait => exact .ite (by rw [h.done_eq]) hrest h.engineStep
    | pass => exact h.pass rest

end SameControl

/-- Settles O54: the two steps are alike, and alike outcomes stop for the same reason or agree on control. -/
theorem controlDoesNotDependOnMessageBytes : Obligations.ControlDoesNotDependOnMessageBytes := by
  intro s s' hphase hblk ht hlen hscript hheld hanswers haddresses hreset
  have hstep := SameControl.step ⟨hphase, hblk, ht, hlen, hscript, hheld, hanswers, haddresses⟩ hreset
  refine ⟨hstep.fault_iff, hstep.refused_iff, fun t t' h h' => ?_⟩
  obtain ⟨hphase, hblk, ht, hlen, hscript, hheld, hanswers, haddresses⟩ := hstep.rel_of_next h h'
  exact ⟨hphase, hblk, ht, hlen, hscript, hheld, hanswers, haddresses⟩

end Sys2Proof
end

section
/-! The message schedule of a block (spec/42_schedule.md R142 to R145): the reference's schedule word by word, and the run
of LDW and EXP steps that computes it. -/

namespace Sys2Proof

open Sys2Proof.Machine Sys2Proof.Safety

/-! ### Runs -/

theorem run_of_step (M : Host.Core) {s t : M.State} (h : M.step s = .next t) (k : Nat) : M.run (k + 1) s = M.run k t := by
  rw [Host.Core.run, h]

/-- A run goes on from where its first `k` steps end. -/
theorem run_add_of_run (M : Host.Core) {t : M.State} (l : Nat) : ∀ {k : Nat} {s : M.State}, M.run k s = .next t →
    M.run (k + l) s = M.run l t
  | 0, s, h => by
    obtain rfl : s = t := Host.Outcome.next.inj h
    rw [Nat.zero_add]
  | k + 1, s, h => by
    rw [Nat.add_right_comm]
    cases hstep : M.step s with
    | next u =>
      rw [run_of_step M hstep] at h ⊢
      exact run_add_of_run M l h
    | fault f => simp [Host.Core.run, hstep] at h
    | refused r => simp [Host.Core.run, hstep] at h

/-- The machine is in state `t` after `k` steps from `s`. -/
abbrev Reaches (k : Nat) (s t : State) : Prop := Host.Core.run Sys2Proof.core k s = .next t

theorem Reaches.trans {k l : Nat} {s t u : State} (h : Reaches k s t) (h' : Reaches l t u) : Reaches (k + l) s u :=
  (run_add_of_run Sys2Proof.core l h).trans h'

theorem reaches_one {s t : State} (h : step s = .next t) : Reaches 1 s t := run_of_step Sys2Proof.core h 0

theorem Reaches.step {k : Nat} {s t u : State} (h : Reaches k s t) (h' : step t = .next u) : Reaches (k + 1) s u :=
  h.trans (reaches_one h')

/-! ### The reference schedule -/

@[simp] theorem length_schedule (p : Nat → Byte) (b k : Nat) : (Reference.schedule p b k).length = 16 + k := by
  induction k with
  | zero => simp [Reference.schedule]
  | succ k ih => simp [Reference.schedule, Reference.extend, ih]; omega

/-- The first words of a block's schedule are the shorter schedule. -/
theorem take_schedule (p : Nat → Byte) (b : Nat) {k l : Nat} (h : k ≤ l) :
    (Reference.schedule p b l).take (16 + k) = Reference.schedule p b k := by
  induction l, h using Nat.le_induction with
  | base => rw [List.take_of_length_le (length_schedule ..).le]
  | succ l hl ih =>
    rw [Reference.schedule, Reference.extend, List.take_append_of_le_length (by rw [length_schedule]; omega), ih]

/-- The schedule of a block as a whole (R142, R144). -/
abbrev wholeSchedule (p : Nat → Byte) (b : Nat) : List Word := Reference.schedule p b 48

/-- The first sixteen words of the schedule are the words of the block (R142). -/
theorem take_wholeSchedule_succ_of_lt (p : Nat → Byte) (b : Nat) {j : Nat} (hj : j < 16) :
    (wholeSchedule p b).take (j + 1) = (wholeSchedule p b).take j ++ [Reference.blockWord p b j] := by
  have htake : ∀ i ≤ 16, (wholeSchedule p b).take i = (List.range i).map (Reference.blockWord p b) := fun i hi => by
    have hwords := take_schedule p b (Nat.zero_le 48)
    have hcut := congrArg (List.take i) hwords
    rw [List.take_take, Nat.min_eq_left hi] at hcut
    rw [wholeSchedule, hcut, Reference.schedule, ← List.map_take, List.take_range, Nat.min_eq_left hi]
  rw [htake _ hj, htake _ hj.le, List.range_succ, List.map_append]
  rfl

/-- The other words follow the recurrence (R143, R144). -/
theorem take_wholeSchedule_succ_of_le (p : Nat → Byte) (b : Nat) {j : Nat} (hlo : 16 ≤ j) (hhi : j ≤ 63) :
    (wholeSchedule p b).take (j + 1) = Reference.extend ((wholeSchedule p b).take j) := by
  obtain ⟨k, rfl⟩ := Nat.exists_eq_add_of_le hlo
  rw [wholeSchedule, take_schedule p b (k := k) (by omega), Nat.add_assoc, take_schedule p b (by omega), Reference.schedule]

/-! ### The words of W -/

/-- Setting word `i` puts it after the words before. -/
theorem take_toList_set {n : Nat} (w : Vector Word n) {i : Nat} (hi : i < n) (x : Word) :
    (w.set i x).toList.take (i + 1) = w.toList.take i ++ [x] := by
  have hlen : i < w.toList.length := by simpa using hi
  rw [Vector.toList_set, List.take_set, List.take_succ_eq_append_getElem hlen, List.set_append_right _ _ (by simp)]
  simp [Nat.min_eq_left hi.le]

theorem getD_toList {n : Nat} (w : Vector Word n) {i : Nat} (hi : i < n) : w.toList.getD i 0 = w[i] := by
  rw [List.getD_eq_getElem _ _ (by simpa using hi), Vector.getElem_toList]

/-- The recurrence on W is the reference's on the words so far (R143). -/
theorem extend_take_toList (w : Vector Word 64) {j : Nat} (h : 16 ≤ j ∧ j ≤ 63) :
    Reference.extend (w.toList.take j) = w.toList.take j ++ [expandedWord w j h] := by
  obtain ⟨hlo, hhi⟩ := h
  have hlen : (w.toList.take j).length = j := by simp; omega
  have hword : ∀ i (hi : i < j), (w.toList.take j).getD i 0 = w[i] := fun i hi => by
    rw [List.getD_eq_getElem _ _ (by omega), List.getElem_take, Vector.getElem_toList]
  rw [Reference.extend, hlen, hword (j - 2) (by omega), hword (j - 7) (by omega), hword (j - 15) (by omega),
    hword (j - 16) (by omega), expandedWord]

/-! ### The steps of a block's schedule -/

/-- The state after the first `j` steps of the scheduling that began in `s`, `1 ≤ j ≤ 64`, with `w` in W. -/
def scheduledState (s : State) (m : Nat → Byte) (w : Vector Word 64) (j : Nat) : State :=
  { s with
    w := w
    t := BitVec.ofNat 7 j
    held := []
    transfers := s.transfers ++
      Reference.reads s.len.toNat m (64 * s.blk.toNat + s.held.length) (min (4 * j) 64 - s.held.length) }

/-- The words of W below `j` are those of the block's schedule. -/
def HoldsSchedule (s : State) (m : Nat → Byte) (w : Vector Word 64) (j : Nat) : Prop :=
  w.toList.take j = (wholeSchedule (Reference.pm s.len.toNat m) s.blk.toNat).take j

theorem holdsSchedule_zero (s : State) (m : Nat → Byte) (w : Vector Word 64) : HoldsSchedule s m w 0 := by
  rw [HoldsSchedule, List.take_zero, List.take_zero]

/-- An LDW step puts the block's next word behind those that W holds. -/
theorem holdsSchedule_of_blockWord {s : State} {m : Nat → Byte} {w : Vector Word 64} {j i : Nat} (hi : i < 64) (hij : i = j)
    (hj : j < 16) (h : HoldsSchedule s m w j) :
    HoldsSchedule s m (w.set i (Reference.blockWord (Reference.pm s.len.toNat m) s.blk.toNat i)) (j + 1) := by
  subst hij
  rw [HoldsSchedule, take_toList_set w hi, h, take_wholeSchedule_succ_of_lt _ _ hj]

/-- An EXP step puts the next word of the recurrence behind those that W holds. -/
theorem holdsSchedule_of_expandedWord {s : State} {m : Nat → Byte} {w : Vector Word 64} {j i : Nat} (hi : 16 ≤ i ∧ i ≤ 63)
    (hij : i = j) (h : HoldsSchedule s m w j) :
    HoldsSchedule s m (w.set i (expandedWord w i hi)) (j + 1) := by
  subst hij
  rw [HoldsSchedule, take_toList_set, ← extend_take_toList, h, take_wholeSchedule_succ_of_le _ _ hi.1 hi.2]

theorem toNat_stepIdx {j : Nat} (hj : j < 128) : (BitVec.ofNat 7 j).toNat = j := by
  rw [BitVec.toNat_ofNat, Nat.mod_eq_of_lt hj]

/-- What a block's scheduling needs where it begins: the engine steps, the block is one of the message's, which the source
holds, and the bytes that the first LDW already has are the message's (R63). -/
structure BlockBegins (s : State) (m : Nat → Byte) : Prop where
  free : EngineFree s
  phase : s.phase = Phase.scheduling
  t : s.t = 0#7
  source : SourceHolds s m
  length_held : s.held.length ≤ 3
  held : ∀ j b, s.held[j]? = some b → b = m (64 * s.blk.toNat + j)
  blk : s.blk.toNat < nblk s.len.toNat

namespace BlockBegins

variable {s : State} {m : Nat → Byte}

/-- The first LDW has its answers in the bytes it holds or at the source. -/
theorem ldwAnswer_eq (h : BlockBegins s m) {k : Nat} (hk : ldwAddress s + k < s.len.toNat) :
    ldwAnswer s k = some (m (ldwAddress s + k)) := by
  have haddress : ldwAddress s = 64 * s.blk.toNat := by rw [ldwAddress, h.t]; rfl
  rw [ldwAnswer]
  cases hheld : s.held[k]? with
  | none => rw [Option.none_or, h.source _ hk]
  | some b => rw [Option.some_or, h.held k b hheld, haddress]

theorem step_first_ldw (h : BlockBegins s m) : ∃ w, HoldsSchedule s m w 1 ∧ step s = .next (scheduledState s m w 1) := by
  have ht : s.t.toNat = 0 := congrArg BitVec.toNat h.t
  have hsel : selected s = .ok .ldw := selected_eq_ok_iff.mpr ⟨h.phase, by omega⟩
  have hexec := exec_ldw_of_answers (by omega) h.phase h.blk fun k _ => h.ldwAnswer_eq (k := k)
  have hstep : BitVec.ofNat 7 (s.t.toNat + 1) = BitVec.ofNat 7 1 := by rw [ht]
  have hreads : ldwReads s m 4 =
      Reference.reads s.len.toNat m (64 * s.blk.toNat + s.held.length) (min (4 * 1) 64 - s.held.length) := by
    rw [ldwReads, ldwAddress, ht]
    rfl
  refine ⟨_, holdsSchedule_of_blockWord (by omega) ht (by decide) (holdsSchedule_zero s m s.w), ?_⟩
  rw [step_eq_exec_of_selected h.free hsel, hexec, hstep, hreads, scheduledState]

theorem step_ldw (h : BlockBegins s m) {w : Vector Word 64} {j : Nat} (h1 : 1 ≤ j) (hj : j < 16)
    (hw : HoldsSchedule s m w j) :
    ∃ w', HoldsSchedule s m w' (j + 1) ∧ step (scheduledState s m w j) = .next (scheduledState s m w' (j + 1)) := by
  have hheld := h.length_held
  have ht : (scheduledState s m w j).t.toNat = j := toNat_stepIdx (by omega)
  have hsel : selected (scheduledState s m w j) = .ok .ldw := selected_eq_ok_iff.mpr ⟨h.phase, by omega⟩
  have hexec := exec_ldw_of_answers (s := scheduledState s m w j) (m := m) (by omega) h.phase h.blk
    fun k _ hk => h.source _ hk
  have hstep : BitVec.ofNat 7 ((scheduledState s m w j).t.toNat + 1) = BitVec.ofNat 7 (j + 1) := by rw [ht]
  have hreads : (scheduledState s m w j).transfers ++ ldwReads (scheduledState s m w j) m 4 =
      (scheduledState s m w (j + 1)).transfers := by
    have hfour : min (4 * (j + 1)) 64 - s.held.length = min (4 * j) 64 - s.held.length + 4 := by omega
    have haddress : ldwAddress (scheduledState s m w j) =
        64 * s.blk.toNat + s.held.length + (min (4 * j) 64 - s.held.length) := by
      rw [ldwAddress, ht, show (scheduledState s m w j).blk = s.blk from rfl]
      omega
    rw [ldwReads, haddress, scheduledState, scheduledState, hfour, reads_add, List.append_assoc]
    rfl
  refine ⟨_, holdsSchedule_of_blockWord (by omega) ht hj hw, ?_⟩
  rw [step_eq_exec_of_selected (s := scheduledState s m w j) h.free hsel, hexec, hstep, hreads]
  rfl

theorem step_exp (h : BlockBegins s m) {w : Vector Word 64} {j : Nat} (hj : 16 ≤ j ∧ j ≤ 63)
    (hw : HoldsSchedule s m w j) :
    ∃ w', HoldsSchedule s m w' (j + 1) ∧ step (scheduledState s m w j) = .next (scheduledState s m w' (j + 1)) := by
  obtain ⟨hlo, hhi⟩ := hj
  have ht : (scheduledState s m w j).t.toNat = j := toNat_stepIdx (by omega)
  have hsel : selected (scheduledState s m w j) = .ok .exp := selected_eq_ok_iff.mpr ⟨h.phase, by omega, by omega⟩
  have hexec := expDerivesOneScheduleWord (scheduledState s m w j) (by omega) h.phase
  have hstep : BitVec.ofNat 7 ((scheduledState s m w j).t.toNat + 1) = BitVec.ofNat 7 (j + 1) := by rw [ht]
  have hreads : (scheduledState s m w j).transfers = (scheduledState s m w (j + 1)).transfers := by
    have hall : min (4 * (j + 1)) 64 = min (4 * j) 64 := by omega
    rw [scheduledState, scheduledState, hall]
  refine ⟨_, holdsSchedule_of_expandedWord (i := (scheduledState s m w j).t.toNat) (by omega) ht hw, ?_⟩
  rw [step_eq_exec_of_selected (s := scheduledState s m w j) h.free hsel, hexec, hstep, hreads]
  rfl

/-- After `j` steps of scheduling W holds the first `j` words, and the port has read their message bytes (R67, R142, R144). -/
theorem reaches_scheduledState (h : BlockBegins s m) {j : Nat} (h1 : 1 ≤ j) (hj : j ≤ 64) :
    ∃ w, HoldsSchedule s m w j ∧ Reaches j s (scheduledState s m w j) := by
  induction j, h1 using Nat.le_induction with
  | base =>
    obtain ⟨w, hw, hstep⟩ := h.step_first_ldw
    exact ⟨w, hw, reaches_one hstep⟩
  | succ j h1 ih =>
    obtain ⟨w, hw, hrun⟩ := ih (by omega)
    by_cases hldw : j < 16
    · obtain ⟨w', hw', hstep⟩ := h.step_ldw h1 hldw hw
      exact ⟨w', hw', hrun.step hstep⟩
    · obtain ⟨w', hw', hstep⟩ := h.step_exp ⟨by omega, by omega⟩ hw
      exact ⟨w', hw', hrun.step hstep⟩

/-- The whole scheduling of a block. -/
theorem reaches_scheduled (h : BlockBegins s m) :
    ∃ w : Vector Word 64, w.toList = wholeSchedule (Reference.pm s.len.toNat m) s.blk.toNat ∧
      Reaches 64 s (scheduledState s m w 64) := by
  obtain ⟨w, hw, hrun⟩ := h.reaches_scheduledState (j := 64) (by decide) le_rfl
  refine ⟨w, ?_, hrun⟩
  rwa [HoldsSchedule, List.take_of_length_le (by simp), List.take_of_length_le (by simp)] at hw

end BlockBegins

/-- Settles O50: the block begins as the statement says, and 64 steps take all its 64 bytes. -/
theorem schedulingStepsComputeTheSchedule : Obligations.SchedulingStepsComputeTheSchedule := by
  intro s m hphase ht hs hsource hlength hheld hblk
  obtain ⟨w, hw, hrun⟩ := BlockBegins.reaches_scheduled ⟨.inl hs, hphase, ht, hsource, hlength, hheld, hblk⟩
  exact ⟨w, hw, hrun⟩

end Sys2Proof
end

section
/-! The compression of a block (spec/43_compression.md R150 to R154): the run of SEED, RND and FOLD steps, which computes
the block function. -/

namespace Sys2Proof

open Sys2Proof.Machine Sys2Proof.Safety

/-- The state after SEED and the first `j` rounds of the compression that began in `s`. -/
def roundState (s : State) (j : Nat) : State :=
  { s with v := Reference.rounds s.h s.w.toList j, phase := Phase.compressing, t := BitVec.ofNat 7 j }

/-- The state after the compression that began in `s`. -/
def compressedState (s : State) : State :=
  { s with
    h := Reference.compress s.h s.w.toList
    v := Reference.rounds s.h s.w.toList 64
    phase := Phase.compressing
    t := 65#7 }

/-- What a block's compression needs where it begins: the engine steps and has scheduled all words. -/
structure CompressionBegins (s : State) : Prop where
  free : EngineFree s
  phase : s.phase = Phase.scheduling
  t : s.t = 64#7

namespace CompressionBegins

variable {s : State}

theorem step_seed (h : CompressionBegins s) : step s = .next (roundState s 0) := by
  have hsel : selected s = .ok .seed := selected_eq_ok_iff.mpr ⟨h.phase, h.t⟩
  rw [step_eq_exec_of_selected h.free hsel, (seedCopiesTheHashState s h.phase h.t).1]
  rfl

theorem step_round (h : CompressionBegins s) {j : Nat} (hj : j ≤ 63) :
    step (roundState s j) = .next (roundState s (j + 1)) := by
  have ht : (roundState s j).t.toNat = j := toNat_stepIdx (by omega)
  have hsel : selected (roundState s j) = .ok .rnd := selected_eq_ok_iff.mpr ⟨rfl, by omega⟩
  have hexec := exec_rnd_of_enabled (s := roundState s j) rfl (by omega)
  have hround : compressRound (roundState s j).v kTable[j] (roundState s j).w[j] =
      Reference.rounds s.h s.w.toList (j + 1) := by
    rw [Reference.rounds, getD_toList kTable (by omega), getD_toList s.w (by omega)]
    rfl
  simp only [ht, hround] at hexec
  rw [step_eq_exec_of_selected (s := roundState s j) h.free hsel, hexec]
  rfl

theorem step_fold (h : CompressionBegins s) : step (roundState s 64) = .next (compressedState s) := by
  have hsel : selected (roundState s 64) = .ok .fold := selected_eq_ok_iff.mpr ⟨rfl, rfl⟩
  rw [step_eq_exec_of_selected (s := roundState s 64) h.free hsel]
  rfl

/-- After SEED and `j` rounds V holds the working variables of the reference. -/
theorem reaches_roundState (h : CompressionBegins s) {j : Nat} (hj : j ≤ 64) : Reaches (1 + j) s (roundState s j) := by
  induction j with
  | zero => exact reaches_one h.step_seed
  | succ j ih => exact (ih (by omega)).step (h.step_round (by omega))

theorem reaches_compressedState (h : CompressionBegins s) : Reaches 66 s (compressedState s) :=
  (h.reaches_roundState le_rfl).step h.step_fold

end CompressionBegins

theorem BlockBegins.compressionBegins {s : State} {m : Nat → Byte} (h : BlockBegins s m) (w : Vector Word 64) :
    CompressionBegins (scheduledState s m w 64) :=
  ⟨h.free, h.phase, rfl⟩

/-- Settles O51: SEED, the 64 rounds and FOLD one after the other. -/
theorem compressingStepsComputeTheBlockFunction : Obligations.CompressingStepsComputeTheBlockFunction :=
  fun _ hphase ht hs => CompressionBegins.reaches_compressedState ⟨.inl hs, hphase, ht⟩

end Sys2Proof
end

section
/-! A whole computation (spec/46_sequencer.md R190 to R193; spec/00_scope.md R19): block after block from BEGIN to SER, with
the digest and the reads it ends with, and the hash script around it. -/

namespace Sys2Proof

open Sys2Proof.Machine Sys2Proof.Safety

/-! ### From block to block -/

/-- What a computation needs where it begins: the engine steps, nothing is held, and the source has the message (R240). -/
structure ComputationBegins (s : State) (m : Nat → Byte) : Prop where
  free : EngineFree s
  phase : s.phase = Phase.paddingDone
  held : s.held = []
  source : SourceHolds s m

/-- A state where block `b` of the computation that began in `s` begins, with these words in H, W and V. -/
def blockState (s : State) (m : Nat → Byte) (b : Nat) (h : Vector Word 8) (w : Vector Word 64) (v : Vector Word 8) : State :=
  { s with
    h := h
    w := w
    v := v
    phase := Phase.scheduling
    blk := BitVec.ofNat 56 b
    t := 0#7
    held := []
    transfers := s.transfers ++ Reference.reads s.len.toNat m 0 (64 * b) }

/-- A state where block `b` is folded, with these words in H, W and V. -/
def foldedState (s : State) (m : Nat → Byte) (b : Nat) (h : Vector Word 8) (w : Vector Word 64) (v : Vector Word 8) : State :=
  { blockState s m (b + 1) h w v with phase := Phase.compressing, blk := BitVec.ofNat 56 b, t := 65#7 }

/-- The number of every block of the message fits BLK (R33). -/
theorem toNat_ofNat_blk {len : MsgLen} {b : Nat} (hb : b < nblk len.toNat) : (BitVec.ofNat 56 b).toNat = b := by
  have hbound := nblk_le_of_msgLen len
  rw [BitVec.toNat_ofNat, Nat.mod_eq_of_lt (by omega)]

/-- The addresses of all blocks below LEN are those of the message. -/
theorem reads_blocks (len : Nat) (m : Nat → Byte) : Reference.reads len m 0 (64 * nblk len) = Reference.reads len m 0 len := by
  have hroom := add_nine_le_blocks len
  obtain ⟨n, hn⟩ : ∃ n, 64 * nblk len = len + n := Nat.exists_eq_add_of_le (by omega)
  have hrest : (List.range' (0 + len) n).filter (· < len) = [] := by
    refine List.filter_eq_nil_iff.mpr fun i hi => ?_
    have := (List.mem_range'_1.mp hi).1
    simpa using (by omega : len ≤ i)
  rw [hn, reads_add, Reference.reads, Reference.reads, hrest, List.map_nil, List.append_nil]

namespace ComputationBegins

variable {s : State} {m : Nat → Byte}

theorem step_begin (hc : ComputationBegins s m) : step s = .next (blockState s m 0 s.h s.w s.v) := by
  have hsel : selected s = .ok .begin := selected_eq_ok_iff.mpr hc.phase
  have hnone : s.transfers ++ Reference.reads s.len.toNat m 0 (64 * 0) = s.transfers := List.append_nil _
  rw [step_eq_exec_of_selected hc.free hsel, exec_begin_of_paddingDone hc.phase, blockState, hnone, ← hc.held]

theorem blockBegins (hc : ComputationBegins s m) {b : Nat} (hb : b < nblk s.len.toNat) (h : Vector Word 8) (w : Vector Word 64)
    (v : Vector Word 8) : BlockBegins (blockState s m b h w v) m where
  free := hc.free
  phase := rfl
  t := rfl
  source := hc.source
  length_held := Nat.zero_le _
  held := fun j b hj => by simp [blockState] at hj
  blk := (toNat_ofNat_blk hb).trans_lt hb

/-- Scheduling and compression take a block from its first step to its fold (R142 to R154). -/
theorem reaches_foldedState (hc : ComputationBegins s m) {b : Nat} (hb : b < nblk s.len.toNat) (h : Vector Word 8)
    (w : Vector Word 64) (v : Vector Word 8) :
    ∃ w' v', Reaches 130 (blockState s m b h w v)
      (foldedState s m b (Reference.compress h (wholeSchedule (Reference.pm s.len.toNat m) b)) w' v') := by
  have hbegins := hc.blockBegins hb h w v
  obtain ⟨w', hw', hrun⟩ := hbegins.reaches_scheduled
  have hrun := hrun.trans (hbegins.compressionBegins w').reaches_compressedState
  have hblk : (blockState s m b h w v).blk.toNat = b := toNat_ofNat_blk hb
  have hreads : (scheduledState (blockState s m b h w v) m w' 64).transfers =
      s.transfers ++ Reference.reads s.len.toNat m 0 (64 * (b + 1)) := by
    have hlater : (scheduledState (blockState s m b h w v) m w' 64).transfers =
        s.transfers ++ Reference.reads s.len.toNat m 0 (64 * b) ++
          Reference.reads s.len.toNat m (64 * (blockState s m b h w v).blk.toNat) 64 := rfl
    rw [hlater, hblk, Nat.mul_succ, reads_add, Nat.zero_add, List.append_assoc]
  have hw' : w'.toList = wholeSchedule (Reference.pm s.len.toNat m) b := hblk ▸ hw'
  refine ⟨w', Reference.rounds h w'.toList 64, Eq.trans hrun (congrArg _ ?_)⟩
  rw [← hw']
  exact congrArg (fun transfers => { foldedState s m b _ w' _ with transfers := transfers }) hreads

theorem step_next (hc : ComputationBegins s m) {b : Nat} (hb : b + 1 < nblk s.len.toNat) (h : Vector Word 8)
    (w : Vector Word 64) (v : Vector Word 8) : step (foldedState s m b h w v) = .next (blockState s m (b + 1) h w v) := by
  have hblk : (foldedState s m b h w v).blk.toNat = b := toNat_ofNat_blk (Nat.lt_of_succ_lt hb)
  have hlast : last (foldedState s m b h w v) = false := last_eq_false_of_lt (hblk.symm ▸ hb)
  have hsel : selected (foldedState s m b h w v) = .ok .next := selected_eq_ok_iff.mpr ⟨rfl, rfl, hlast⟩
  have hnext : BitVec.ofNat 56 b + 1#56 = BitVec.ofNat 56 (b + 1) := (BitVec.ofNat_add ..).symm
  rw [step_eq_exec_of_selected (s := foldedState s m b h w v) hc.free hsel, exec_next_of_not_last rfl rfl hlast]
  exact congrArg (fun blk => Host.Outcome.next { blockState s m (b + 1) h w v with blk := blk }) hnext

theorem step_ser (hc : ComputationBegins s m) {b : Nat} (hb : b + 1 = nblk s.len.toNat) (h : Vector Word 8)
    (w : Vector Word 64) (v : Vector Word 8) :
    step (foldedState s m b h w v) =
      .next { foldedState s m b h w v with digest := serialize h, phase := Phase.finalized } := by
  have hblk : (foldedState s m b h w v).blk.toNat = b := toNat_ofNat_blk (len := s.len) (by omega)
  have hlast : last (foldedState s m b h w v) = true := (last_eq _).mpr (hblk.symm ▸ hb)
  have hsel : selected (foldedState s m b h w v) = .ok .ser := selected_eq_ok_iff.mpr ⟨rfl, rfl, hlast⟩
  rw [step_eq_exec_of_selected (s := foldedState s m b h w v) hc.free hsel]
  exact if_pos ⟨rfl, rfl, hlast⟩

/-- Block `b` begins after BEGIN and 131·b steps, with the hash state before it in H where the computation began with IV
(R154, R190). -/
theorem reaches_blockState (hc : ComputationBegins s m) {b : Nat} (hb : b < nblk s.len.toNat) :
    ∃ h w v, (s.h = iv → h = Reference.hashState (Reference.pm s.len.toNat m) b) ∧
      Reaches (1 + 131 * b) s (blockState s m b h w v) := by
  induction b with
  | zero => exact ⟨_, _, _, id, reaches_one hc.step_begin⟩
  | succ b ih =>
    obtain ⟨h, w, v, hh, hrun⟩ := ih (Nat.lt_of_succ_lt hb)
    obtain ⟨w', v', hblock⟩ := hc.reaches_foldedState (Nat.lt_of_succ_lt hb) h w v
    refine ⟨_, w', v', fun hiv => ?_, (hrun.trans hblock).step (hc.step_next hb ..)⟩
    rw [hh hiv, Reference.hashState]

/-- The whole computation ends in FINALIZED with the hash of the message, having read each message byte once (R19, R67). -/
theorem reaches_finalized (hc : ComputationBegins s m) (hiv : s.h = iv) :
    ∃ t, Reaches (1 + 131 * nblk s.len.toNat) s t ∧ t.phase = Phase.finalized ∧
      t.digest = Reference.hash s.len.toNat m ∧ t.transfers = s.transfers ++ Reference.reads s.len.toNat m 0 s.len.toNat ∧
      t.script = s.script ∧ t.seen = s.seen := by
  have hroom := add_nine_le_blocks s.len.toNat
  obtain ⟨b, hb⟩ : ∃ b, b + 1 = nblk s.len.toNat := ⟨nblk s.len.toNat - 1, by omega⟩
  obtain ⟨h, w, v, hh, hrun⟩ := hc.reaches_blockState (b := b) (by omega)
  obtain ⟨w', v', hblock⟩ := hc.reaches_foldedState (b := b) (by omega) h w v
  have hend := (hrun.trans hblock).step (hc.step_ser hb ..)
  rw [Reference.hash, ← hb]
  refine ⟨_, hend, rfl, ?_, ?_, rfl, rfl⟩
  · show serialize _ = serialize _
    rw [hh hiv, Reference.hashState]
  · show s.transfers ++ Reference.reads s.len.toNat m 0 (64 * (b + 1)) = _
    rw [hb, reads_blocks]

/-- Every step of a computation before its last is in the block loop, at the place that LEN fixes (R190). -/
theorem reaches_position (hc : ComputationBegins s m) {b j : Nat} (hb : b < nblk s.len.toNat) (hj : j < 131) :
    ∃ t, Reaches (1 + 131 * b + j) s t ∧ t.blk.toNat = b ∧ t.len = s.len ∧ t.source = s.source ∧
      (j ≤ 64 → t.phase = Phase.scheduling ∧ t.t.toNat = j) ∧
      (65 ≤ j → t.phase = Phase.compressing ∧ t.t.toNat = j - 65) := by
  obtain ⟨h, w, v, -, hrun⟩ := hc.reaches_blockState hb
  have hbegins := hc.blockBegins hb h w v
  have hblk : (blockState s m b h w v).blk.toNat = b := toNat_ofNat_blk hb
  obtain hj0 | hsched | hround | hfold : j = 0 ∨ (1 ≤ j ∧ j ≤ 64) ∨ (65 ≤ j ∧ j ≤ 129) ∨ j = 130 := by omega
  · subst hj0
    exact ⟨_, hrun, hblk, rfl, rfl, fun _ => ⟨rfl, rfl⟩, fun h => absurd h (by decide)⟩
  · obtain ⟨w', -, hsteps⟩ := hbegins.reaches_scheduledState hsched.1 hsched.2
    exact ⟨_, hrun.trans hsteps, hblk, rfl, rfl, fun _ => ⟨rfl, toNat_stepIdx (by omega)⟩, fun h => absurd h (by omega)⟩
  · obtain ⟨i, rfl⟩ := Nat.exists_eq_add_of_le hround.1
    obtain ⟨w', -, hsteps⟩ := hbegins.reaches_scheduled
    have hrounds := (hbegins.compressionBegins w').reaches_roundState (j := i) (by omega)
    have hsteps := hsteps.trans hrounds
    rw [← Nat.add_assoc] at hsteps
    refine ⟨_, hrun.trans hsteps, hblk, rfl, rfl, fun h => absurd h (by omega), fun _ => ⟨rfl, ?_⟩⟩
    rw [Nat.add_sub_cancel_left]
    exact toNat_stepIdx (by omega)
  · subst hfold
    obtain ⟨w', v', hsteps⟩ := hc.reaches_foldedState hb h w v
    exact ⟨_, hrun.trans hsteps, hblk, rfl, rfl, fun h => absurd h (by decide), fun _ => ⟨rfl, rfl⟩⟩

theorem not_finalized_of_reaches (hc : ComputationBegins s m) {k : Nat} {u : State} (hk : k ≤ 131 * nblk s.len.toNat)
    (hrun : Reaches k s u) : u.phase ≠ Phase.finalized := by
  rcases Nat.eq_zero_or_pos k with rfl | hpos
  · obtain rfl : s = u := Host.Outcome.next.inj hrun
    rw [hc.phase]
    decide
  · have hcount : k = 1 + 131 * ((k - 1) / 131) + (k - 1) % 131 := by omega
    obtain ⟨t, ht, -, -, -, hsched, hcompr⟩ := hc.reaches_position (b := (k - 1) / 131) (j := (k - 1) % 131) (by omega)
      (Nat.mod_lt _ (by decide))
    obtain rfl : u = t := Host.Outcome.next.inj (hrun.symm.trans (hcount ▸ ht))
    rcases Nat.lt_or_ge 64 ((k - 1) % 131) with h | h
    · rw [(hcompr h).1]
      decide
    · rw [(hsched h).1]
      decide

end ComputationBegins

/-- Settles O49: the position of each step of a block, after the steps of the blocks before it. -/
theorem sequencerTrajectoryIsFixedByTheLength : Obligations.SequencerTrajectoryIsFixedByTheLength :=
  fun _ _ _ _ hphase hs hheld hsource => ComputationBegins.reaches_position ⟨.inl hs, hphase, hheld, hsource⟩

/-- Settles O52: the last block ends with SER, and every step before it is still in the block loop. -/
theorem computationEndsWithTheHash : Obligations.ComputationEndsWithTheHash := by
  intro s m hphase hiv hs hheld hsource
  have hc : ComputationBegins s m := ⟨.inl hs, hphase, hheld, hsource⟩
  obtain ⟨t, hrun, hfinal, hdigest, htransfers, -⟩ := hc.reaches_finalized hiv
  exact ⟨⟨t, hrun, hfinal, hdigest, htransfers⟩, fun k u hk hu => hc.not_finalized_of_reaches hk hu⟩

/-! ### The hash script -/

/-- INIT and START from any state that accepts a command begin a computation with H = IV (R171, R172). -/
theorem reaches_computation_of_commands {s : State} {n : Nat} {rest : List HostEvent} (hready : ready s = true)
    (hn : n < 2 ^ 61)
    (hs : s.script = .command (mkCmdWord 0b001#3 0#61) :: .command (mkCmdWord 0b010#3 (BitVec.ofNat 61 n)) :: rest) :
    Reaches 2 s { s with h := iv, len := BitVec.ofNat 61 n, phase := Phase.paddingDone, script := rest } := by
  obtain ⟨hinit, -⟩ := stepTransfersThePresentedCommand s _ _ hready hs
  have hfirst := (hinit _ (decodeCmd_init _)).trans (exec_init_of_ready hready)
  obtain ⟨hstart, -⟩ := stepTransfersThePresentedCommand { s with h := iv, phase := Phase.init, script := _ } _ _
    (ready_of_init rfl) rfl
  have hsecond := (hstart _ (decodeCmd_start_ofNat hn)).trans (exec_start_of_init rfl hn)
  exact (reaches_one hfirst).step hsecond

/-- WAIT is over once DONE = 1, and then the host reads the digest (R95, R176). -/
theorem reaches_of_wait_readDigest {s : State} (hphase : s.phase = Phase.finalized) (hs : s.script = [.wait, .readDigest]) :
    Reaches 2 s { s with script := [], seen := s.seen ++ [.digest (digestPort s.digest)], draws := s.draws + 1 } := by
  have hdone : done s = true := (done_eq s).mpr hphase
  have hwait : step s = .next { s with script := [.readDigest] } := by rw [step_of_script_cons hs, eventStep, if_pos hdone]
  have hread : step { s with script := [.readDigest] } = .next (readDigest { s with script := [] }) :=
    step_of_script_cons (e := .readDigest) (rest := []) rfl
  rw [← digestOutput_of_done hdone]
  exact (reaches_one hwait).step hread

/-- Settles O53: the two commands begin the computation, which the WAIT lets run to its end, and DIGEST is read there. -/
theorem hashScriptShowsTheHashOfTheMessage : Obligations.HashScriptShowsTheHashOfTheMessage := by
  intro s n m hready hheld hscript hsource
  obtain ⟨hn, hs⟩ := hashScript_eq_ok hscript
  have hlen : (BitVec.ofNat 61 n).toNat = n := by rw [BitVec.toNat_ofNat, Nat.mod_eq_of_lt hn]
  have hstart := reaches_computation_of_commands hready hn hs
  have hc := ComputationBegins.reaches_finalized (m := m)
    (s := { s with h := iv, len := BitVec.ofNat 61 n, phase := Phase.paddingDone, script := [.wait, .readDigest] })
    ⟨.inr ⟨_, rfl⟩, rfl, hheld, fun i hi => hsource i (hlen ▸ hi)⟩ rfl
  simp only [hlen] at hc
  obtain ⟨t, hrun, hphase, hdigest, htransfers, htscript, hseen⟩ := hc
  have hall := (hstart.trans hrun).trans (reaches_of_wait_readDigest hphase htscript)
  have hcount : 131 * nblk n + 5 = 2 + (1 + 131 * nblk n) + 2 := by omega
  rw [hcount, ← hdigest, ← hseen]
  exact ⟨_, hall, rfl, hphase, rfl, htransfers⟩

end Sys2Proof
end
